-- ==== Sys2Proof/Config.lean ====
section
/-! DEFINITION. The one open parameter of the block, LMAX (spec/00_scope.md R5, R6; decision D6), and the
widths that follow from it. The block draws no free value (R13, R14), so this file declares none. -/

namespace Sys2Proof

/-- What an implementation fixes: `LMAX`, the longest codeword it accepts, `1 ≤ LMAX ≤ 255` (R5). The field
holds LMAX - 1, so that a value outside the range cannot be written. No step writes it
(notes/assumptions/1.md). -/
structure Config where
  lmaxLess1 : Fin 255
  deriving DecidableEq, Repr

/-- `LMAX` (R5). -/
def Config.lmax (c : Config) : Nat := c.lmaxLess1.val + 1

/-- `CMDW = 24 + LMAX`, the width of a command word (R5, R70). -/
def Config.cmdw (c : Config) : Nat := 24 + c.lmax

/-- The default `LMAX = 255` (R5). -/
def Config.default : Config := { lmaxLess1 := 254 }

end Sys2Proof
end

