-- ==== Sys2Proof/Word.lean ====
section
/-! DEFINITION. The bit vectors of the block: a byte, a symbol, a codeword register and a command word
(spec/00_scope.md R5, R7; spec/30_encoding.md R70). -/

namespace Sys2Proof

/-- An 8-bit group, body byte or byte argument (`BYTEW = 8`, R5). -/
abbrev Byte := BitVec 8

/-- A symbol: one 8-bit value, the address of its table entry (`SYMW = 8`, R5, R33). -/
abbrev Symbol := BitVec 8

/-- A codeword value, first codeword bit at bit 0 (R8). The register is as wide as the widest block
(`LMAX = 255`); a block with a smaller LMAX keeps the bits at and above LMAX zero
(notes/assumptions/2.md, DEDUCED). -/
abbrev Codeword := BitVec 255

/-- A command word. `CMDW = 24 + LMAX` bits, 279 for the widest block (R70). -/
abbrev CmdWord := BitVec 279

end Sys2Proof
end

