-- ==== Sys2Proof/Machine/State.lean ====
section
/-! DEFINITION. The state of the block as plain data (spec/10_state.md R20 to R37), the reasons a step could
stop, and the state after reset. INVENTORY.md, '## State', lists every field with its rule and reset value. -/

namespace Sys2Proof.Machine

/-- `MODE` (R31). The register has 2 bits; value 3 is never reached and is not representable (U12). -/
inductive Mode where
  /-- 0 IDLE: no stream open; the table may be changed. -/
  | idle
  /-- 1 PACK: a pack stream is open. -/
  | pack
  /-- 2 DECODE: a decode stream is open. -/
  | decode
  deriving DecidableEq, Repr

/-- The contents of `FAULT` (R30, R200). The register has 4 bits; codes 8 to 15 are never produced and are not
representable (U12). -/
inductive FaultCode where
  /-- 0: no fault recorded. -/
  | noFault
  /-- 1: the word's OP is none of the eleven opcodes (R201). -/
  | illegalCommand
  /-- 2: a command in a MODE that does not admit it, or MBIT or MEND while a byte is held (R202). -/
  | sequence
  /-- 3: LEN = 0 or LEN > LMAX (R203). -/
  | badLength
  /-- 4: another symbol already holds the codeword (R204). -/
  | duplicateCodeword
  /-- 5: PUTSYM of a symbol with no valid entry (R205). -/
  | unknownSymbol
  /-- 6: a padding count the stream cannot have (R206). -/
  | badPadding
  /-- 7: the stream ended with bits in the matcher's buffer (R207). -/
  | unknownCodeword
  deriving DecidableEq, Repr

/-- A valid table entry: `tlen[s]` (8 bits) and `tcw[s]` (LMAX bits) (R20, R34). -/
structure Entry where
  tlen : Byte
  tcw : Codeword
  deriving DecidableEq, Repr

/-- The codeword table, indexed by the symbol (R33, R51). `none` is `tv[s] = 0`; then `tlen[s]` and `tcw[s]`
have no value, as R37 and U13 allow (notes/assumptions/6.md). -/
abbrev Table := Vector (Option Entry) 256

/-- One item of the packer's output stream `BOUT`: 8 data bits and the `last` mark (R11, R52). -/
structure BoutItem where
  data : Byte
  last : Bool
  deriving DecidableEq, Repr

/-- What the host may do next: present a command word, or assert hardware reset between commands (R12, R232). -/
inductive HostEvent where
  | command (w : CmdWord)
  | hardwareReset
  deriving DecidableEq, Repr

/-- The state of the block, and beside it the configuration, the events the host has yet to present and the
two output traces. -/
structure State where
  /-- The configuration, LMAX (R5). Not state of the block: no step writes it (notes/assumptions/1.md). -/
  cfg : Config
  /-- Packer: the partial byte being filled (R21). -/
  acc : Byte
  /-- Packer: number of stream bits in `acc`, 0 to 7 (R22). -/
  cnt : BitVec 3
  /-- Unpacker: the body byte received and not yet released (R23). -/
  hold : Byte
  /-- Unpacker: `hold_v`, `hold` holds an unreleased byte (R23). -/
  holdV : Bool
  /-- Matcher: the accumulated bits, first at bit 0 (R24). -/
  mbuf : Codeword
  /-- Matcher: number of bits in `mbuf`, 0 to LMAX (R25). -/
  mlen : Byte
  /-- Matcher: `mbuf` is full and unmatched; later bits are dropped (R26). -/
  movf : Bool
  /-- `MODE` (R31). -/
  mode : Mode
  /-- `FAULT` (R30). -/
  fault : FaultCode
  /-- The 256 entries `tv`, `tlen`, `tcw` (R33). -/
  table : Table
  /-- The host's events to come, next first (R12; notes/assumptions/3.md). -/
  pending : List HostEvent
  /-- The trace of the packer's output, oldest first (R11). -/
  bout : List BoutItem
  /-- The trace of the decoder's output symbols, oldest first (R11). -/
  sout : List Symbol
  deriving DecidableEq, Repr

/-- Reasons the machine would stop with a fault of the host's interface. There is none: a fault of the block
writes `FAULT` and the block goes on (R210, R211), which is a next state (notes/assumptions/9.md). Safe: no
behaviour is cut off. -/
inductive Fault where
  deriving DecidableEq, Repr

/-- Reasons a step would have no meaning. -/
inductive Refusal where
  /-- An instruction without a meaning in this model, raised by an arm of `exec` only. No arm raises it: every
  command has its meaning. Safe: it would only stop a run. -/
  | notModelled (mnemonic : String)
  deriving DecidableEq, Repr

/-- The block right after reset (R37, R230): every register 0, IDLE, no fault, an empty table. LMAX is the
default 255 (R5), the output traces start empty (R11) and the host has presented nothing yet. -/
def State.reset : State where
  cfg := Config.default
  acc := 0
  cnt := 0
  hold := 0
  holdV := false
  mbuf := 0
  mlen := 0
  movf := false
  mode := .idle
  fault := .noFault
  table := Vector.replicate 256 none
  pending := []
  bout := []
  sout := []

end Sys2Proof.Machine
end

