-- ==== Sys2Proof/Machine/Flags.lean ====
section
/-! DEFINITION. The block has no condition codes (spec/10_state.md R29). What the host sees are the codes of
`FAULT` and `MODE` on the status port (R30, R31, R32); the one-bit state elements besides are `hold_v`, `movf`
(fields of State) and `tv`. -/

namespace Sys2Proof.Machine

/-- The value of `MODE` on the status port (R31). -/
def Mode.code : Mode → BitVec 2
  | .idle => 0
  | .pack => 1
  | .decode => 2

/-- The value of `FAULT` on the status port (R30, R200). -/
def FaultCode.code : FaultCode → BitVec 4
  | .noFault => 0
  | .illegalCommand => 1
  | .sequence => 2
  | .badLength => 3
  | .duplicateCodeword => 4
  | .unknownSymbol => 5
  | .badPadding => 6
  | .unknownCodeword => 7

/-- The status port, `FAULT` and `MODE` (R32). The spec gives the two values and no order of their bits, so the
model shows them as a pair. -/
def State.status (s : State) : BitVec 4 × BitVec 2 := (s.fault.code, s.mode.code)

/-- `tv[sym]`: the entry of `sym` is valid (R20). -/
def State.tv (s : State) (sym : Symbol) : Bool := (s.table[sym.toNat]'sym.isLt).isSome

end Sys2Proof.Machine
end

