-- ==== Sys2Proof/Syntax.lean ====
section
/-! DEFINITION. The eleven commands of the block, one constructor per row of spec/opcode_table.json
(spec/30_encoding.md R71, R72). A field a command ignores (R74) has no argument. -/

namespace Sys2Proof

/-- The commands (R72) with the operands they use (R71, R76, R77). -/
inductive Instr where
  /-- `NOP`, OP 0x00 (R92). -/
  | nop
  /-- `SRST`, OP 0x01: soft reset (R93). -/
  | srst
  /-- `TCLR`, OP 0x10: invalidate all table entries (R94). -/
  | tclr
  /-- `TSET`, OP 0x11: symbol `A`, length `LEN`, value `CW` (R96). -/
  | tset (sym : Symbol) (len : Byte) (cw : Codeword)
  /-- `PUTCW`, OP 0x20: length `LEN`, value `CW` (R112). -/
  | putcw (len : Byte) (cw : Codeword)
  /-- `PUTSYM`, OP 0x21: symbol `A` (R114). -/
  | putsym (sym : Symbol)
  /-- `PFLUSH`, OP 0x22 (R116). -/
  | pflush
  /-- `UBYTE`, OP 0x30: body byte `A` (R132). -/
  | ubyte (b : Byte)
  /-- `UEND`, OP 0x31: padding count `A`, all 8 bits (R134). -/
  | uend (pad : Byte)
  /-- `MBIT`, OP 0x32: the bit `A[0]` (R152). -/
  | mbit (bit : Bool)
  /-- `MEND`, OP 0x33 (R154). -/
  | mend
  deriving DecidableEq, Repr

end Sys2Proof
end

