-- ==== Sys2Proof/WellFormed.lean ====
section
/-! DEFINITION. Which command terms and command words a block with a given LMAX can be handed
(spec/30_encoding.md R70). Operand ranges (length, padding) are no part of it: they are checked when the
command is executed (R75). -/

namespace Sys2Proof

/-- A codeword value fits the `CW` field, which has LMAX bits (R70). -/
def codewordFits (c : Config) (cw : Codeword) : Bool := decide (cw.toNat < 2 ^ c.lmax)

/-- A command term is well-formed for a block: its codeword value, where it has one, fits the `CW` field.
Every other operand has the width of its field. -/
def Instr.wf (c : Config) : Instr → Bool
  | .nop => true
  | .srst => true
  | .tclr => true
  | .tset _ _ cw => codewordFits c cw
  | .putcw _ cw => codewordFits c cw
  | .putsym _ => true
  | .pflush => true
  | .ubyte _ => true
  | .uend _ => true
  | .mbit _ => true
  | .mend => true

/-- A command word is one the port of the block carries: it has CMDW bits (R70). -/
def CmdWord.fits (c : Config) (w : CmdWord) : Bool := decide (w.toNat < 2 ^ c.cmdw)

end Sys2Proof
end

