-- ==== Sys2Proof/Decode.lean ====
section
/-! DEFINITION. Decoding a command word, total on every word (spec/30_encoding.md R70 to R78), and after it
the encoder, the codeword strings and the pseudo-commands (R8, R79, R80). -/

namespace Sys2Proof

/-- `mask(n)`, the value 2^n - 1 in a codeword register (R10). -/
def mask (n : Nat) : Codeword := BitVec.ofNat 255 (2 ^ n - 1)

/-- `bits(n, c)`: the bit sequence `c[0], c[1], ..., c[n-1]`, first in the stream first (R8). -/
def bits {w : Nat} (n : Nat) (c : BitVec w) : List Bool := (List.range n).map fun i => c.getLsbD i

/-! ### Fields of the command word (R70) -/

/-- `OP`, word bits 7:0. -/
def opField (w : CmdWord) : Byte := w.extractLsb' 0 8

/-- `LEN`, word bits 15:8. -/
def lenField (w : CmdWord) : Byte := w.extractLsb' 8 8

/-- `A`, word bits 23:16. -/
def aField (w : CmdWord) : Byte := w.extractLsb' 16 8

/-- `CW`, word bits 24+LMAX-1:24. -/
def cwField (c : Config) (w : CmdWord) : Codeword := w.extractLsb' 24 255 &&& mask c.lmax

/-- What decoding answers: one of the eleven commands, or the opcode that is none of them (R73, R75). -/
inductive Decoded where
  | command (i : Instr)
  | illegal (op : Byte)
  deriving DecidableEq, Repr

/-- The decoder: `OP` alone selects the command, all 8 bits compared (R72); every other value is illegal
(R73). Fields the command does not use are not looked at (R74). -/
def decode (c : Config) (w : CmdWord) : Decoded :=
  match (opField w).toNat with
  | 0x00 => .command .nop
  | 0x01 => .command .srst
  | 0x10 => .command .tclr
  | 0x11 => .command (.tset (aField w) (lenField w) (cwField c w))
  | 0x20 => .command (.putcw (lenField w) (cwField c w))
  | 0x21 => .command (.putsym (aField w))
  | 0x22 => .command .pflush
  | 0x30 => .command (.ubyte (aField w))
  | 0x31 => .command (.uend (aField w))
  | 0x32 => .command (.mbit ((aField w).getLsbD 0))
  | 0x33 => .command .mend
  | _ => .illegal (opField w)

/-- The word `w` as the opcode table numbers its bits (bit 0 the least significant, bits at and above `nbits`
zero), read by the decoder of the default block. -/
def decodeTableWord (nbits w : Nat) : Option Instr :=
  match decode Config.default (BitVec.ofNat 279 (w % 2 ^ nbits)) with
  | .command i => some i
  | .illegal _ => none

/-! ### The encoder -/

/-- `word = OP + LEN * 2^8 + A * 2^16 + CW * 2^24`: the four fields side by side (R70). -/
def assemble (op len a : Byte) (cw : Codeword) : CmdWord := cw ++ a ++ len ++ op

/-- The opcode of a command (R72). -/
def Instr.opcode : Instr → Byte
  | .nop => 0x00
  | .srst => 0x01
  | .tclr => 0x10
  | .tset _ _ _ => 0x11
  | .putcw _ _ => 0x20
  | .putsym _ => 0x21
  | .pflush => 0x22
  | .ubyte _ => 0x30
  | .uend _ => 0x31
  | .mbit _ => 0x32
  | .mend => 0x33

/-- The word of a command; ignored fields are assembled as zero (R71, R79). -/
def encode (i : Instr) : CmdWord :=
  match i with
  | .nop => assemble i.opcode 0 0 0
  | .srst => assemble i.opcode 0 0 0
  | .tclr => assemble i.opcode 0 0 0
  | .tset sym len cw => assemble i.opcode len sym cw
  | .putcw len cw => assemble i.opcode len 0 cw
  | .putsym sym => assemble i.opcode 0 sym 0
  | .pflush => assemble i.opcode 0 0 0
  | .ubyte b => assemble i.opcode 0 b 0
  | .uend pad => assemble i.opcode 0 pad 0
  | .mbit bit => assemble i.opcode 0 (BitVec.ofNat 8 bit.toNat) 0
  | .mend => assemble i.opcode 0 0 0

/-! ### Codeword strings and pseudo-commands (R8, R80) -/

/-- The value of a bit sequence, first bit at bit 0: bit i weighs 2^i. -/
def valNat : List Bool → Nat
  | [] => 0
  | b :: bs => b.toNat + 2 * valNat bs

/-- `val(s)`: the pair (LEN, CW) of a codeword string (R8, R79). The spec gives no form for a string of more than 255
bits, which the LEN field cannot count; there the length is taken mod 256 and the value mod 2^255
(notes/assumptions/16.md, DESIGN CHOICE). -/
def val (s : List Bool) : Byte × Codeword := (BitVec.ofNat 8 s.length, BitVec.ofNat 255 (valNat s))

/-- `PUTCW "s"` (R79). -/
def putcwString (s : List Bool) : Instr := .putcw (val s).1 (val s).2

/-- `TSET sym, "s"` (R79). -/
def tsetString (sym : Symbol) (s : List Bool) : Instr := .tset sym (val s).1 (val s).2

/-- `PUTBIT b` is `PUTCW "b"` (R80). -/
def putbit (b : Bool) : List Instr := [putcwString [b]]

/-- `PUTS "text"` is one `PUTSYM` per byte, in order (R80). -/
def puts (text : List Symbol) : List Instr := text.map .putsym

/-- `UBODY b0 b1 ... bk` is one `UBYTE` per byte, in order (R80). -/
def ubody (body : List Byte) : List Instr := body.map .ubyte

/-- `MBITS "0110"` is one `MBIT` per character, first on the left first (R80). -/
def mbits (s : List Bool) : List Instr := s.map .mbit

/-- `TABLE` is `TCLR` then one `TSET` per pair, in the order written (R80). -/
def loadTable (pairs : List (Symbol × List Bool)) : List Instr :=
  .tclr :: pairs.map fun p => tsetString p.1 p.2

end Sys2Proof
end

