-- ==== Sys2Proof/Machine/Operands.lean ====
section
/-! DEFINITION. Operand assembly (spec/30_encoding.md R76, R77). The symbol, byte, padding and bit operands
are the fields themselves; the codeword operand is a length and a masked value. -/

namespace Sys2Proof.Machine

/-- The length operand is admitted: `LEN != 0` and `LEN <= LMAX` (R76). -/
def lengthOk (c : Config) (len : Byte) : Bool := decide (1 ≤ len.toNat ∧ len.toNat ≤ c.lmax)

/-- `c = CW & mask(n)`: codeword bits at and above the length are ignored (R74, R76). -/
def maskedCodeword (len : Byte) (cw : Codeword) : Codeword := cw &&& mask len.toNat

/-- The table entry a TSET writes: its length and its masked value (R76, R96). -/
def codewordOperand (len : Byte) (cw : Codeword) : Entry := { tlen := len, tcw := maskedCodeword len cw }

/-- The codeword of an entry as a bit sequence, `bits(tlen[s], tcw[s])` (R34). -/
def Entry.bits (e : Entry) : List Bool := Sys2Proof.bits e.tlen.toNat e.tcw

end Sys2Proof.Machine
end

