-- ==== Sys2Proof/Machine/Ops.lean ====
section
/-! DEFINITION. The shared operations: raising a fault and leaving it (spec/60_exceptions.md R210 to R212), the
frame every command runs in (spec/40_system_table.md R90, R91), the table (R51, R95), and the datapath steps of
the packer, the unpacker and the matcher (R110, R130, R150, R151). -/

namespace Sys2Proof.Machine

/-- `r[i] <- b` (R10). -/
def setBit {w : Nat} (v : BitVec w) (i : Nat) (b : Bool) : BitVec w :=
  if b then v ||| (1#w <<< i) else v &&& ~~~(1#w <<< i)

/-! ### Faults, and the way out of them -/

/-- `raise F`: `FAULT <- code(F)`, nothing else is saved or changed (R210). -/
def raise (f : FaultCode) (s : State) : State := { s with fault := f }

/-- Hardware reset and SRST, the same effect (R93, R230) and the only exit from the faulted state (R212). The
output traces stay (R231), and what is not state of the block stays. -/
def resetBlock (s : State) : State :=
  { State.reset with cfg := s.cfg, pending := s.pending, bout := s.bout, sout := s.sout }

/-! ### The frame of a command -/

/-- A command other than SRST: refused with no effect while `FAULT != 0`, else its rule runs (R90, R211). -/
def honour (rule : State → State) (s : State) : Host.Outcome State Fault Refusal :=
  .next (if s.fault = .noFault then rule s else s)

/-- `RequireMode(S)`: Sequence when MODE is not in S (R91). -/
def requireMode (allowed : List Mode) (rule : State → State) (s : State) : State :=
  if s.mode ∈ allowed then rule s else raise .sequence s

/-! ### The codeword table -/

/-- `TabRead(sym)`: the whole entry, `none` when `tv[sym] = 0` (R51). -/
def tabRead (t : Table) (sym : Symbol) : Option Entry := t[sym.toNat]'sym.isLt

/-- `TabWrite(sym, n, c)`: the entry becomes valid (R51). -/
def tabWrite (t : Table) (sym : Symbol) (e : Entry) : Table := t.set sym.toNat (some e) sym.isLt

/-- Every `tv[s] <- 0` (R94). -/
def tabEmpty : Table := Vector.replicate 256 none

/-- The first entry equal to `e` in a list of entries whose first is that of symbol number `i`. -/
def lookupFrom (e : Entry) : List (Option Entry) → Nat → Option Symbol
  | [], _ => none
  | x :: rest, i => if x = some e then some (BitVec.ofNat 8 i) else lookupFrom e rest (i + 1)

/-- `Lookup(n, c)`, the content search (R95). Where several entries qualified, which invariant I10 rules out,
the lowest symbol is named (notes/assumptions/7.md). -/
def lookup (t : Table) (n : Byte) (c : Codeword) : Option Symbol :=
  lookupFrom { tlen := n, tcw := c } t.toList 0

/-! ### The packer -/

/-- `emit BOUT(d, l)` (R10, R11). -/
def emitBout (data : Byte) (last : Bool) (s : State) : State :=
  { s with bout := s.bout ++ [{ data := data, last := last }] }

/-- `PackBit(b)` (R110). -/
def packBit (s : State) (b : Bool) : State :=
  let filled := setBit s.acc s.cnt.toNat b
  if s.cnt = 7 then { emitBout filled false s with acc := 0, cnt := 0 }
  else { s with acc := filled, cnt := s.cnt + 1 }

/-- PackBit for each bit of a sequence, first bit first. -/
def packBits (bs : List Bool) (s : State) : State := bs.foldl packBit s

/-! ### The matcher -/

/-- `emit SOUT(sym)` (R10, R11). -/
def emitSout (sym : Symbol) (s : State) : State := { s with sout := s.sout ++ [sym] }

/-- `DeliverBit(b)` (R150). -/
def deliverBit (s : State) (b : Bool) : State :=
  if s.movf then s
  else
    let buf := setBit s.mbuf s.mlen.toNat b
    let len := s.mlen + 1
    match lookup s.table len buf with
    | some sym => { emitSout sym s with mbuf := 0, mlen := 0 }
    | none => { s with mbuf := buf, mlen := len, movf := decide (len.toNat = s.cfg.lmax) }

/-- DeliverBit for each bit of a sequence, first bit first. -/
def deliverBits (bs : List Bool) (s : State) : State := bs.foldl deliverBit s

/-- `EndCheck()` and, when it does not raise, `MODE <- IDLE` (R151, R134, R154). -/
def endCheck (s : State) : State :=
  if s.mlen = 0 then { s with mode := .idle } else raise .unknownCodeword s

/-! ### The unpacker -/

/-- `Release(b, n)`: the first n bits of a body byte to the matcher (R130). -/
def release (b : Byte) (n : Nat) (s : State) : State := deliverBits (bits n b) s

end Sys2Proof.Machine
end

