-- ==== Sys2Proof/Machine/Matcher.lean ====
section
/-! DEFINITION. The match commands MBIT and MEND (spec/43_match.md R152, R154). -/

namespace Sys2Proof.Machine

/-- `if hold_v = 1 then raise Sequence` (R152, R154). -/
def requireNothingHeld (rule : State → State) (s : State) : State :=
  if s.holdV then raise .sequence s else rule s

/-- `MBIT bit` (R152). -/
def execMbit (bit : Bool) (s : State) : Host.Outcome State Fault Refusal :=
  honour (requireMode [.idle, .decode]
    (requireNothingHeld fun s => deliverBit { s with mode := .decode } bit)) s

/-- `MEND` (R154). -/
def execMend (s : State) : Host.Outcome State Fault Refusal :=
  honour (requireMode [.idle, .decode] (requireNothingHeld endCheck)) s

end Sys2Proof.Machine
end

