-- ==== Sys2Proof/Machine/Packer.lean ====
section
/-! DEFINITION. The pack commands PUTCW, PUTSYM and PFLUSH (spec/41_pack.md R112, R114, R116). -/

namespace Sys2Proof.Machine

/-- `MODE <- PACK`, then PackBit for every bit of the codeword (R112, R114). -/
def appendCodeword (bs : List Bool) (s : State) : State := packBits bs { s with mode := .pack }

/-- The rule of PUTCW after its mode check (R112). -/
def putcwRule (len : Byte) (cw : Codeword) (s : State) : State :=
  if !lengthOk s.cfg len then raise .badLength s
  else appendCodeword (bits len.toNat cw) s

/-- `PUTCW "codeword"` (R112). -/
def execPutcw (len : Byte) (cw : Codeword) (s : State) : Host.Outcome State Fault Refusal :=
  honour (requireMode [.idle, .pack] (putcwRule len cw)) s

/-- The rule of PUTSYM after its mode check (R114). -/
def putsymRule (sym : Symbol) (s : State) : State :=
  match tabRead s.table sym with
  | none => raise .unknownSymbol s
  | some e => appendCodeword e.bits s

/-- `PUTSYM sym` (R114). -/
def execPutsym (sym : Symbol) (s : State) : Host.Outcome State Fault Refusal :=
  honour (requireMode [.idle, .pack] (putsymRule sym)) s

/-- The padding count PFLUSH reports: `8 - cnt` when `cnt != 0`, else 0 (R116, R118). -/
def padding (cnt : BitVec 3) : Byte := if cnt = 0 then 0 else BitVec.ofNat 8 (8 - cnt.toNat)

/-- The rule of PFLUSH after its mode check: the final short group if there is one, then the padding-count
byte, marked last (R116). -/
def pflushRule (s : State) : State :=
  let flushed := if s.cnt = 0 then s else emitBout s.acc false s
  { emitBout (padding s.cnt) true flushed with acc := 0, cnt := 0, mode := .idle }

/-- `PFLUSH` (R116). -/
def execPflush (s : State) : Host.Outcome State Fault Refusal :=
  honour (requireMode [.idle, .pack] pflushRule) s

end Sys2Proof.Machine
end

