-- ==== Sys2Proof/Machine/System.lean ====
section
/-! DEFINITION. The system commands NOP and SRST (spec/40_system_table.md R92, R93). -/

namespace Sys2Proof.Machine

/-- `NOP` (R92): nothing, in every mode. -/
def execNop (s : State) : Host.Outcome State Fault Refusal := honour (fun s => s) s

/-- `SRST` (R93): the reset state, honoured in every state, faulted or not (R90). -/
def execSrst (s : State) : Host.Outcome State Fault Refusal := .next (resetBlock s)

end Sys2Proof.Machine
end

