-- ==== Sys2Proof/Machine/TableCommands.lean ====
section
/-! DEFINITION. The table commands TCLR and TSET (spec/40_system_table.md R94, R96). -/

namespace Sys2Proof.Machine

/-- `TCLR` (R94). -/
def execTclr (s : State) : Host.Outcome State Fault Refusal :=
  honour (requireMode [.idle] fun s => { s with table := tabEmpty }) s

/-- Another symbol's valid entry already holds the codeword (R96). -/
def heldByAnother (t : Table) (sym : Symbol) (e : Entry) : Bool :=
  match lookup t e.tlen e.tcw with
  | none => false
  | some other => decide (other ≠ sym)

/-- The rule of TSET after its mode check: BadLength, then DuplicateCodeword, then the write (R96). -/
def tsetRule (sym : Symbol) (len : Byte) (cw : Codeword) (s : State) : State :=
  let e := codewordOperand len cw
  if !lengthOk s.cfg len then raise .badLength s
  else if heldByAnother s.table sym e then raise .duplicateCodeword s
  else { s with table := tabWrite s.table sym e }

/-- `TSET sym, "codeword"` (R96). -/
def execTset (sym : Symbol) (len : Byte) (cw : Codeword) (s : State) : Host.Outcome State Fault Refusal :=
  honour (requireMode [.idle] (tsetRule sym len cw)) s

end Sys2Proof.Machine
end

