-- ==== Sys2Proof/Machine/Unpacker.lean ====
section
/-! DEFINITION. The unpack commands UBYTE and UEND (spec/42_unpack.md R132, R134). -/

namespace Sys2Proof.Machine

/-- The rule of UBYTE after its mode check: the held byte, if any, is released whole, and the new one is held
unexamined (R132). -/
def ubyteRule (b : Byte) (s : State) : State :=
  let opened := { s with mode := .decode }
  let released := if s.holdV then release s.hold 8 opened else opened
  { released with hold := b, holdV := true }

/-- `UBYTE byte` (R132). -/
def execUbyte (b : Byte) (s : State) : Host.Outcome State Fault Refusal :=
  honour (requireMode [.idle, .decode] (ubyteRule b)) s

/-- The final body byte, if one is held: all but its last `pad` bits are released and it is dropped (R134). -/
def releaseFinal (pad : Byte) (s : State) : State :=
  if s.holdV then { release s.hold (8 - pad.toNat) s with hold := 0, holdV := false } else s

/-- The rule of UEND after its mode check: both BadPadding checks, the last bits, EndCheck (R134). -/
def uendRule (pad : Byte) (s : State) : State :=
  if 7 < pad.toNat then raise .badPadding s
  else if s.holdV = false ∧ pad ≠ 0 then raise .badPadding s
  else endCheck (releaseFinal pad s)

/-- `UEND pad` (R134). -/
def execUend (pad : Byte) (s : State) : Host.Outcome State Fault Refusal :=
  honour (requireMode [.idle, .decode] (uendRule pad)) s

end Sys2Proof.Machine
end

