-- ==== Sys2Proof/Machine/Dispatch.lean ====
section
/-! DEFINITION. One arm per command, each one call of its meaning. -/

namespace Sys2Proof.Machine

def exec (i : Instr) (s : State) : Host.Outcome State Fault Refusal :=
  match i with
  | .nop => Sys2Proof.Machine.execNop s
  | .srst => Sys2Proof.Machine.execSrst s
  | .tclr => Sys2Proof.Machine.execTclr s
  | .tset sym len cw => Sys2Proof.Machine.execTset sym len cw s
  | .putcw len cw => Sys2Proof.Machine.execPutcw len cw s
  | .putsym sym => Sys2Proof.Machine.execPutsym sym s
  | .pflush => Sys2Proof.Machine.execPflush s
  | .ubyte b => Sys2Proof.Machine.execUbyte b s
  | .uend pad => Sys2Proof.Machine.execUend pad s
  | .mbit bit => Sys2Proof.Machine.execMbit bit s
  | .mend => Sys2Proof.Machine.execMend s

end Sys2Proof.Machine
end

