-- ==== Sys2Proof/Machine/Sequencer.lean ====
section
/-! DEFINITION. The command sequencer, the one agent of the block (spec/00_scope.md R12): it takes the host's
next event and performs it whole (spec/20_memory.md R61). -/

namespace Sys2Proof.Machine

/-- An opcode that is none of the eleven: IllegalCommand, unless the block is faulted already (R73, R90, R201). -/
def execIllegal (s : State) : Host.Outcome State Fault Refusal := honour (raise .illegalCommand) s

/-- `Execute(w)` (R90). -/
def executeWord (w : CmdWord) (s : State) : Host.Outcome State Fault Refusal :=
  match decode s.cfg w with
  | .command i => exec i s
  | .illegal _ => execIllegal s

/-- The next event of the host, taken off `pending`: a command word is executed; hardware reset resets the
block (R230, R232). With nothing presented the block holds its state (R225). -/
def takeEvent (s : State) : Host.Outcome State Fault Refusal :=
  match s.pending with
  | [] => .next s
  | .command w :: rest => executeWord w { s with pending := rest }
  | .hardwareReset :: rest => .next (resetBlock { s with pending := rest })

/-- The host presents `w` as its next event, before everything still pending (notes/assumptions/3.md). -/
def present (w : CmdWord) (s : State) : State := { s with pending := .command w :: s.pending }

end Sys2Proof.Machine
end

