-- ==== Sys2Proof/Machine/Step.lean ====
section
/-! DEFINITION. One step of the block: one event of the host (spec/00_scope.md R12). -/

namespace Sys2Proof.Machine

/-- One step: the host's next event, whole (R61). -/
def step (s : State) : Host.Outcome State Fault Refusal := takeEvent s

/-- `s` with the word `w` of `nbits` bits presented as the next command, so that the very next step runs it.
A program is loaded from outside the machine: it is the list of words the host presents
(notes/assumptions/3.md). -/
def State.withFetchWord (s : State) (nbits w : Nat) : State :=
  present (BitVec.ofNat 279 (w % 2 ^ nbits)) s

end Sys2Proof.Machine
end

