-- ==== Sys2Proof/Safety.lean ====
section
/-! DEFINITION. The terms claims are stated in: the invariants of the block (spec/10_state.md R27), runs of
several commands, the bits a pack stream appends (spec/41_pack.md R119), prefix-freeness, and the prefix-tree
form of the matcher (spec/43_match.md R156). -/

namespace Sys2Proof.Machine

/-! ### The table -/

/-- I9: a valid entry has `1 ≤ tlen ≤ LMAX` and `tcw < 2^tlen` (R27, R34). -/
def EntriesInRange (c : Config) (t : Table) : Prop :=
  ∀ (sym : Symbol) (e : Entry), tabRead t sym = some e →
    1 ≤ e.tlen.toNat ∧ e.tlen.toNat ≤ c.lmax ∧ e.tcw.toNat < 2 ^ e.tlen.toNat

/-- I10: no two valid entries hold the same codeword (R27, R35). -/
def CodewordsDistinct (t : Table) : Prop :=
  ∀ (sym sym' : Symbol) (e : Entry), tabRead t sym = some e → tabRead t sym' = some e → sym = sym'

/-- The table is prefix-free: no codeword is a prefix of another symbol's codeword (R35, R157). The block does
not check it; claims that need it take it as a premise (R235). -/
def PrefixFree (t : Table) : Prop :=
  ∀ (sym sym' : Symbol) (e e' : Entry), tabRead t sym = some e → tabRead t sym' = some e' →
    e.bits <+: e'.bits → sym = sym'

/-! ### The invariants of the block -/

/-- The invariants I1 to I11 of R27 at a command boundary, but for I8, which `Mode` makes true by its type.
`bufferRoom` is not listed in R27: it is read from R25, R26 and R150 (e) (notes/assumptions/10.md, DEDUCED). -/
structure Inv (s : State) : Prop where
  /-- I1: bits `cnt` and above of `acc` are zero. -/
  accClear : s.acc.toNat < 2 ^ s.cnt.toNat
  /-- I2: bits `mlen` and above of `mbuf` are zero. -/
  mbufClear : s.mbuf.toNat < 2 ^ s.mlen.toNat
  /-- I3. -/
  movfFull : s.movf = true → s.mlen.toNat = s.cfg.lmax
  /-- I4. -/
  holdClear : s.holdV = false → s.hold = 0
  /-- I5. -/
  idleClosed : s.mode = .idle →
    s.cnt = 0 ∧ s.acc = 0 ∧ s.holdV = false ∧ s.mlen = 0 ∧ s.movf = false
  /-- I6. -/
  packOnly : s.mode = .pack → s.holdV = false ∧ s.mlen = 0 ∧ s.movf = false
  /-- I7. -/
  decodeOnly : s.mode = .decode → s.cnt = 0 ∧ s.acc = 0
  /-- I9. -/
  entriesInRange : EntriesInRange s.cfg s.table
  /-- I10. -/
  codewordsDistinct : CodewordsDistinct s.table
  /-- I11: the buffer at rest is never equal to a codeword. -/
  bufferUnmatched : s.mlen ≠ 0 → ∀ sym : Symbol, tabRead s.table sym ≠ some { tlen := s.mlen, tcw := s.mbuf }
  /-- `movf = 0` leaves room for one more bit: `mlen < LMAX`. -/
  bufferRoom : s.movf = false → s.mlen.toNat < s.cfg.lmax

/-! ### Groups of commands (R72, R91) -/

/-- A table command: TCLR, TSET. -/
def isTableCommand : Instr → Bool
  | .nop => false
  | .srst => false
  | .tclr => true
  | .tset _ _ _ => true
  | .putcw _ _ => false
  | .putsym _ => false
  | .pflush => false
  | .ubyte _ => false
  | .uend _ => false
  | .mbit _ => false
  | .mend => false

/-- A pack command: PUTCW, PUTSYM, PFLUSH. -/
def isPackCommand : Instr → Bool
  | .nop => false
  | .srst => false
  | .tclr => false
  | .tset _ _ _ => false
  | .putcw _ _ => true
  | .putsym _ => true
  | .pflush => true
  | .ubyte _ => false
  | .uend _ => false
  | .mbit _ => false
  | .mend => false

/-- An unpack or match command: UBYTE, UEND, MBIT, MEND. -/
def isDecodeCommand : Instr → Bool
  | .nop => false
  | .srst => false
  | .tclr => false
  | .tset _ _ _ => false
  | .putcw _ _ => false
  | .putsym _ => false
  | .pflush => false
  | .ubyte _ => true
  | .uend _ => true
  | .mbit _ => true
  | .mend => true

/-! ### Runs of commands -/

/-- The commands of a list, one after another (R61). -/
def execAll : List Instr → State → Host.Outcome State Fault Refusal
  | [], s => .next s
  | i :: rest, s =>
    match exec i s with
    | .next t => execAll rest t
    | .fault r => .fault r
    | .refused r => .refused r

/-! ### Pack streams -/

/-- The codeword of a symbol as a bit sequence, empty when it has none. -/
def codewordOf (t : Table) (sym : Symbol) : List Bool :=
  match tabRead t sym with
  | none => []
  | some e => e.bits

/-- The bits a command appends to an open pack stream (R112, R114). -/
def packedBits (t : Table) : Instr → List Bool
  | .nop => []
  | .srst => []
  | .tclr => []
  | .tset _ _ _ => []
  | .putcw len cw => bits len.toNat cw
  | .putsym sym => codewordOf t sym
  | .pflush => []
  | .ubyte _ => []
  | .uend _ => []
  | .mbit _ => []
  | .mend => []

/-- A command of a pack stream that does not fault: a NOP, a PUTCW of an admitted length, a PUTSYM of a symbol
with a valid entry (R119). -/
def PacksWithoutFault (c : Config) (t : Table) : Instr → Prop
  | .nop => True
  | .srst => False
  | .tclr => False
  | .tset _ _ _ => False
  | .putcw len _ => 1 ≤ len.toNat ∧ len.toNat ≤ c.lmax
  | .putsym sym => tabRead t sym ≠ none
  | .pflush => False
  | .ubyte _ => False
  | .uend _ => False
  | .mbit _ => False
  | .mend => False

/-! ### Parses (R157) -/

/-- `x` is cut into the codewords of `syms`, in order, and a remainder that begins with no codeword. -/
structure IsParse (t : Table) (x : List Bool) (syms : List Symbol) (r : List Bool) : Prop where
  cut : x = syms.flatMap (codewordOf t) ++ r
  valid : ∀ sym ∈ syms, tabRead t sym ≠ none
  unmatched : ∀ sym e, tabRead t sym = some e → ¬ e.bits <+: r

/-! ### TSET sequences -/

/-- The operands of one TSET. -/
structure TsetArgs where
  sym : Symbol
  len : Byte
  cw : Codeword
  deriving DecidableEq, Repr

/-- The TSET of its operands. -/
def TsetArgs.instr (a : TsetArgs) : Instr := .tset a.sym a.len a.cw

/-- The last codeword a TSET sequence gives a symbol, `none` when it gives none (R97). -/
def lastGiven (sym : Symbol) : List TsetArgs → Option Entry
  | [] => none
  | a :: rest =>
    match lastGiven sym rest with
    | some e => some e
    | none => if a.sym = sym then some { tlen := a.len, tcw := a.cw &&& mask a.len.toNat } else none

/-! ### The prefix-tree form of the matcher (R156) -/

/-- The codewords of the valid entries, as bit sequences. -/
def codewords (t : Table) : List (List Bool) := t.toList.filterMap fun x => x.map Entry.bits

/-- A bit string is a node of the tree when it is a prefix of some valid codeword. -/
def isNode (t : Table) (path : List Bool) : Bool := (codewords t).any fun w => path.isPrefixOf w

/-- The label of a node: the symbol whose codeword the bit string is, searched from symbol number `i` on. -/
def labelFrom (path : List Bool) : List (Option Entry) → Nat → Option Symbol
  | [], _ => none
  | x :: rest, i =>
    if x.map Entry.bits = some path then some (BitVec.ofNat 8 i) else labelFrom path rest (i + 1)

/-- The label of a node of the tree of a table. -/
def labelOf (t : Table) (path : List Bool) : Option Symbol := labelFrom path t.toList 0

/-- The cursor of the walk: at a node, or dead. -/
inductive Cursor where
  | at (path : List Bool)
  | dead
  deriving DecidableEq, Repr

/-- The root of the tree: the empty string. -/
def Cursor.root : Cursor := .at []

/-- One delivered bit: move to that child; a missing child is death, a label is emitted and the cursor goes
back to the root (R156). -/
def walkBit (t : Table) (p : Cursor × List Symbol) (b : Bool) : Cursor × List Symbol :=
  match p.1 with
  | .dead => p
  | .at path =>
    if isNode t (path ++ [b]) then
      match labelOf t (path ++ [b]) with
      | some sym => (.root, p.2 ++ [sym])
      | none => (.at (path ++ [b]), p.2)
    else (.dead, p.2)

/-- The walk over a bit sequence, from the root: the cursor at the end, and the symbols emitted (R156). -/
def walk (t : Table) (bs : List Bool) : Cursor × List Symbol := bs.foldl (walkBit t) (.root, [])

end Sys2Proof.Machine
end

