-- ==== Sys2Proof/Certificates/Slice0/Obligations.lean ====
section
/-! DEFINITION. The statements for the provers, from the numbered rules of spec/. OBLIGATIONS.json lists them.
Where a statement rests on an inference the spec marks as its own ("[derived: ...]") or on an entry of the
assumption log, its docstring says so. -/

open Sys2Proof Sys2Proof.Machine

/-! ### Encoding (spec/30_encoding.md) -/

/-- Decoding the word of a well-formed command gives the command back, for every LMAX and every operand. -/
def Obligations.DecodeEncodeRoundTrip : Prop :=
  ∀ (c : Config) (i : Instr), i.wf c = true → decode c (encode i) = .command i

/-- A command's word fits the CMDW-bit command port of a block exactly when the command is well-formed for it. -/
def Obligations.EncodedWordFitsPortWhenWellFormed : Prop :=
  ∀ (c : Config) (i : Instr), CmdWord.fits c (encode i) = i.wf c

/-- R72, R75: every word is one of the eleven commands or illegal, decided by OP alone; and what is decoded is
well-formed for the block. -/
def Obligations.OpcodeAloneSelectsCommand : Prop :=
  ∀ (c : Config) (w : CmdWord),
    (opField w ∈ [0x00#8, 0x01#8, 0x10#8, 0x11#8, 0x20#8, 0x21#8, 0x22#8, 0x30#8, 0x31#8, 0x32#8, 0x33#8] →
      ∃ i : Instr, decode c w = .command i ∧ i.opcode = opField w ∧ i.wf c = true) ∧
    (opField w ∉ [0x00#8, 0x01#8, 0x10#8, 0x11#8, 0x20#8, 0x21#8, 0x22#8, 0x30#8, 0x31#8, 0x32#8, 0x33#8] →
      decode c w = .illegal (opField w))

/-- R74: the fields a command ignores have no effect: two words that agree on the opcode and on the fields
their command uses do the same in every state. For PUTCW and TSET the codeword bits at and above LEN count
among the ignored ones; for MBIT the bits `A[7:1]`. The all-zero word is NOP, and TSET stores the masked value. -/
def Obligations.IgnoredFieldsHaveNoEffect : Prop :=
  (∀ (w w' : CmdWord) (s : State),
    opField w = opField w' →
    (opField w ∈ [0x11#8, 0x20#8] → lenField w = lenField w' ∧
      ∀ j, j < (lenField w).toNat → (cwField s.cfg w).getLsbD j = (cwField s.cfg w').getLsbD j) →
    (opField w ∈ [0x11#8, 0x21#8, 0x30#8, 0x31#8] → aField w = aField w') →
    (opField w = 0x32#8 → (aField w).getLsbD 0 = (aField w').getLsbD 0) →
    executeWord w s = executeWord w' s) ∧
  (∀ c : Config, decode c 0 = .command .nop) ∧
  ∀ (s t : State) (sym : Symbol) (len : Byte) (cw : Codeword), s.fault = .noFault →
    exec (.tset sym len cw) s = .next t → t.fault = .noFault →
    tabRead t.table sym = some { tlen := len, tcw := BitVec.ofNat 255 (cw.toNat % 2 ^ len.toNat) }

/-- R70: a word of CMDW bits is the integer `OP + LEN * 2^8 + A * 2^16 + CW * 2^24` of its four fields, and every
operand a command has is the whole field R71 and R77 name for it, MBIT's the lowest bit of `A`. -/
def Obligations.CommandWordIsItsFourFields : Prop :=
  ∀ (c : Config) (w : CmdWord),
    (cwField c w).toNat < 2 ^ c.lmax ∧
    (CmdWord.fits c w = true → w.toNat = (opField w).toNat + (lenField w).toNat * 2 ^ 8 +
      (aField w).toNat * 2 ^ 16 + (cwField c w).toNat * 2 ^ 24) ∧
    (opField w = 0x11#8 → decode c w = .command (.tset (aField w) (lenField w) (cwField c w))) ∧
    (opField w = 0x20#8 → decode c w = .command (.putcw (lenField w) (cwField c w))) ∧
    (opField w = 0x21#8 → decode c w = .command (.putsym (aField w))) ∧
    (opField w = 0x30#8 → decode c w = .command (.ubyte (aField w))) ∧
    (opField w = 0x31#8 → decode c w = .command (.uend (aField w))) ∧
    (opField w = 0x32#8 → decode c w = .command (.mbit (decide ((aField w).toNat % 2 = 1))))

/-- The fourteen worked encodings at LMAX = 255 that the spec derives from R70 (its R81), read by the decoder and
written by the encoder. -/
def Obligations.WorkedEncodingsDecode : Prop :=
  ∀ p ∈ ([(0x0#279, .nop), (0x1#279, .srst), (0x10#279, .tclr),
      (0x1610111#279, .tset 0x61 1 1), (0x2620211#279, .tset 0x62 2 2), (0x630211#279, .tset 0x63 2 0),
      (0x3630311#279, .tset 0x63 3 3), (0x6000320#279, .putcw 3 6), (0x610021#279, .putsym 0x61),
      (0x22#279, .pflush), (0x570030#279, .ubyte 0x57), (0x70031#279, .uend 7), (0x10032#279, .mbit true),
      (0x33#279, .mend)] : List (CmdWord × Instr)),
    decode Config.default p.1 = .command p.2 ∧ encode p.2 = p.1

/-! ### The step (spec/00_scope.md R12; spec/20_memory.md R61; spec/40_system_table.md R90) -/

/-- When the next event is a command word that decodes to `i`, the step takes the word off and is `exec i`. -/
def Obligations.StepRunsTheDecodedCommand : Prop :=
  ∀ (s : State) (w : CmdWord) (rest : List HostEvent) (i : Instr),
    s.pending = .command w :: rest → decode s.cfg w = .command i →
    step s = exec i { s with pending := rest }

/-- A word presented by `withFetchWord` is the one the next step runs, and the rest of the state is as it was. -/
def Obligations.PresentedWordRunsNext : Prop :=
  ∀ (s : State) (nbits w : Nat) (i : Instr),
    decode s.cfg (BitVec.ofNat 279 (w % 2 ^ nbits)) = .command i →
    step (s.withFetchWord nbits w) = exec i s

/-- R73, R201: a word whose opcode is none of the eleven raises IllegalCommand and changes nothing else. -/
def Obligations.IllegalOpcodeRaisesIllegalCommand : Prop :=
  ∀ (s : State) (w : CmdWord), s.fault = .noFault →
    opField w ∉ [0x00#8, 0x01#8, 0x10#8, 0x11#8, 0x20#8, 0x21#8, 0x22#8, 0x30#8, 0x31#8, 0x32#8, 0x33#8] →
    executeWord w s = .next { s with fault := .illegalCommand }

/-- R37, R230: hardware reset gives every register its reset value, leaves the output streams, and is what SRST
does. -/
def Obligations.HardwareResetGivesResetValues : Prop :=
  ∀ (s : State) (rest : List HostEvent), s.pending = .hardwareReset :: rest →
    step s = exec .srst { s with pending := rest } ∧
    ∃ t, step s = .next t ∧ t.acc = 0 ∧ t.cnt = 0 ∧ t.hold = 0 ∧ t.holdV = false ∧ t.mbuf = 0 ∧ t.mlen = 0 ∧
      t.movf = false ∧ t.mode = .idle ∧ t.fault = .noFault ∧ (∀ sym, t.tv sym = false) ∧
      t.bout = s.bout ∧ t.sout = s.sout

/-- Every event the host presents is completed by the step that takes it (R247, liveness), and no step stops the
machine; the parameter LMAX is never written (notes/assumptions/1.md and 3.md, DESIGN CHOICE: where the
parameter and the events are held). -/
def Obligations.EveryEventIsCompleted : Prop :=
  ∀ s : State, ∃ t, step s = .next t ∧ t.pending = s.pending.tail ∧ t.cfg = s.cfg

/-- Items are only ever appended to `BOUT` and `SOUT`, by commands and by reset alike (R11, R231). -/
def Obligations.OutputTracesOnlyGrow : Prop :=
  ∀ s t : State, step s = .next t → s.bout <+: t.bout ∧ s.sout <+: t.sout

/-- A command emits at most 32 bytes or 8 symbols at LMAX = 255; for every LMAX at most
`max(2, floor((7 + LMAX) / 8))` bytes: R247 leaves out PFLUSH's two items, which exceed its figure when
LMAX < 9 (notes/assumptions/13.md). -/
def Obligations.OutputOfOneCommandIsBounded : Prop :=
  ∀ (i : Instr) (s t : State), EntriesInRange s.cfg s.table → exec i s = .next t →
    t.bout.length ≤ s.bout.length + max 2 ((7 + s.cfg.lmax) / 8) ∧ t.sout.length ≤ s.sout.length + 8

/-! ### Invariants (spec/10_state.md R27) -/

/-- The invariants hold at reset. -/
def Obligations.ResetMeetsInvariants : Prop := Inv State.reset

/-- Every step keeps the invariants: commands, illegal words, refused words, hardware reset. The spec marks I1 to
I11 as its own inference; `Inv.bufferRoom` is the model's (notes/assumptions/10.md, DEDUCED). -/
def Obligations.StepKeepsInvariants : Prop :=
  ∀ s t : State, Inv s → step s = .next t → Inv t

/-! ### Faults (spec/60_exceptions.md) -/

/-- R211: while `FAULT != 0` every word but SRST's, legal or not, changes no state, emits nothing and raises
nothing. -/
def Obligations.FaultedBlockRefusesAllButSrst : Prop :=
  ∀ (s : State) (w : CmdWord), s.fault ≠ .noFault → opField w ≠ 0x01#8 → executeWord w s = .next s

/-- R200, R208: the codes, the fault a word records, and when. The conditions of each row hold the checks that come
before it in the order of R208. -/
def Obligations.CommandsFaultExactlyAsTabled : Prop :=
  (FaultCode.code .noFault = 0 ∧ FaultCode.code .illegalCommand = 1 ∧ FaultCode.code .sequence = 2 ∧
    FaultCode.code .badLength = 3 ∧ FaultCode.code .duplicateCodeword = 4 ∧ FaultCode.code .unknownSymbol = 5 ∧
    FaultCode.code .badPadding = 6 ∧ FaultCode.code .unknownCodeword = 7) ∧
  (∀ (w : CmdWord) (s : State), s.fault ≠ .noFault → opField w ≠ 0x01#8 → executeWord w s = .next s) ∧
  (∀ (w : CmdWord) (s t : State), s.fault = .noFault → executeWord w s = .next t →
    (t.fault = .illegalCommand ↔
      opField w ∉ [0x00#8, 0x01#8, 0x10#8, 0x11#8, 0x20#8, 0x21#8, 0x22#8, 0x30#8, 0x31#8, 0x32#8, 0x33#8])) ∧
  ∀ (i : Instr) (s t : State), CodewordsDistinct s.table → s.fault = .noFault → exec i s = .next t →
    t.fault ≠ .illegalCommand ∧
    (t.fault = .sequence ↔
      (isTableCommand i = true ∧ s.mode ≠ .idle) ∨ (isPackCommand i = true ∧ s.mode = .decode) ∨
      (isDecodeCommand i = true ∧ s.mode = .pack) ∨ ((i = .mend ∨ ∃ b, i = .mbit b) ∧ s.holdV = true)) ∧
    (t.fault = .badLength ↔ ∃ (len : Byte) (cw : Codeword),
      ((∃ sym, i = .tset sym len cw) ∧ s.mode = .idle ∨ i = .putcw len cw ∧ s.mode ≠ .decode) ∧
      (len = 0 ∨ s.cfg.lmax < len.toNat)) ∧
    (t.fault = .duplicateCodeword ↔ ∃ (sym : Symbol) (len : Byte) (cw : Codeword),
      i = .tset sym len cw ∧ s.mode = .idle ∧ len ≠ 0 ∧ len.toNat ≤ s.cfg.lmax ∧
      ∃ other, other ≠ sym ∧
        tabRead s.table other = some { tlen := len, tcw := BitVec.ofNat 255 (cw.toNat % 2 ^ len.toNat) }) ∧
    (t.fault = .unknownSymbol ↔ ∃ sym, i = .putsym sym ∧ s.mode ≠ .decode ∧ s.tv sym = false) ∧
    (t.fault = .badPadding ↔ ∃ pad : Byte, i = .uend pad ∧ s.mode ≠ .pack ∧
      (7 < pad.toNat ∨ (pad ≠ 0 ∧ s.holdV = false))) ∧
    (t.fault = .unknownCodeword ↔
      (∃ pad : Byte, i = .uend pad ∧ s.mode ≠ .pack ∧ pad.toNat ≤ 7 ∧ (pad = 0 ∨ s.holdV = true) ∧
        (deliverBits (if s.holdV then bits (8 - pad.toNat) s.hold else []) s).mlen ≠ 0) ∨
      (i = .mend ∧ s.mode ≠ .pack ∧ s.holdV = false ∧ s.mlen ≠ 0))

/-- R210: faults are precise. A word that raises code 1 to 6 leaves the state before it, but for FAULT; code 7
leaves the state after the bit deliveries of its UEND or MEND, with `hold_v = 0` and MODE = DECODE. -/
def Obligations.FaultsArePrecise : Prop :=
  ∀ (w : CmdWord) (s t : State), Inv s → s.fault = .noFault → executeWord w s = .next t → t.fault ≠ .noFault →
    s.bout <+: t.bout ∧ s.sout <+: t.sout ∧
    (t.fault ≠ .unknownCodeword → t = { s with fault := t.fault }) ∧
    (t.fault = .unknownCodeword →
      t.holdV = false ∧ t.mode = .decode ∧
      ((decode s.cfg w = .command .mend ∧ t = { s with fault := .unknownCodeword }) ∨
        ∃ pad : Byte, decode s.cfg w = .command (.uend pad) ∧
          t = { deliverBits (if s.holdV then bits (8 - pad.toNat) s.hold else []) s with
            hold := 0, holdV := false, fault := .unknownCodeword }))

/-- R212: the only exits from the faulted state are SRST and hardware reset, and both put the whole block, table
included, in the reset state; any other event of the host leaves the block as it is. -/
def Obligations.OnlyResetLeavesTheFaultedState : Prop :=
  ∀ s t : State, s.fault ≠ .noFault → step s = .next t →
    ((s.pending.head? = some .hardwareReset ∨ ∃ w, s.pending.head? = some (.command w) ∧ opField w = 0x01#8) →
      t.acc = 0 ∧ t.cnt = 0 ∧ t.hold = 0 ∧ t.holdV = false ∧ t.mbuf = 0 ∧ t.mlen = 0 ∧ t.movf = false ∧
      t.mode = .idle ∧ t.fault = .noFault ∧ ∀ sym, t.tv sym = false) ∧
    (¬ (s.pending.head? = some .hardwareReset ∨ ∃ w, s.pending.head? = some (.command w) ∧ opField w = 0x01#8) →
      t = { s with pending := s.pending.tail })

/-! ### Whole-machine rules -/

/-- R31: the values of MODE, and its transitions, made by the commands of the table and by reset and by nothing
else; a command in a mode that does not admit it raises Sequence. -/
def Obligations.ModeChangesOnlyAsTabled : Prop :=
  (Mode.code .idle = 0 ∧ Mode.code .pack = 1 ∧ Mode.code .decode = 2) ∧
  (∀ s : State, ∃ t, exec .srst s = .next t ∧ t.mode = .idle) ∧
  (∀ (s : State) (rest : List HostEvent), s.pending = .hardwareReset :: rest →
    ∃ t, step s = .next t ∧ t.mode = .idle) ∧
  (∀ (s : State) (w : CmdWord),
    opField w ∉ [0x00#8, 0x01#8, 0x10#8, 0x11#8, 0x20#8, 0x21#8, 0x22#8, 0x30#8, 0x31#8, 0x32#8, 0x33#8] →
    ∃ t, executeWord w s = .next t ∧ t.mode = s.mode) ∧
  ∀ (i : Instr) (s t : State), Inv s → s.fault = .noFault → exec i s = .next t →
    ((isTableCommand i = true ∧ s.mode ≠ .idle) ∨ (isPackCommand i = true ∧ s.mode = .decode) ∨
      (isDecodeCommand i = true ∧ s.mode = .pack) → t = { s with fault := .sequence }) ∧
    (t.fault ≠ .noFault → t.fault ≠ .unknownCodeword → t.mode = s.mode) ∧
    (t.fault = .unknownCodeword → (i = .mend ∨ ∃ pad, i = .uend pad) ∧ s.mode = .decode ∧ t.mode = .decode) ∧
    (t.fault = .noFault →
      (i = .nop → t.mode = s.mode) ∧
      (isTableCommand i = true → s.mode = .idle ∧ t.mode = .idle) ∧
      (((∃ len cw, i = .putcw len cw) ∨ ∃ sym, i = .putsym sym) → s.mode ≠ .decode ∧ t.mode = .pack) ∧
      (i = .pflush → s.mode ≠ .decode ∧ t.mode = .idle) ∧
      (((∃ b, i = .ubyte b) ∨ ∃ b, i = .mbit b) → s.mode ≠ .pack ∧ t.mode = .decode) ∧
      ((i = .mend ∨ ∃ pad, i = .uend pad) → s.mode ≠ .pack ∧ t.mode = .idle))

/-- Of the commands, only SRST, in any mode, and TCLR and TSET, in IDLE in a block that is not faulted, change the
table (R51, R63, R240). The one other way to change it, hardware reset, is no command: see
HardwareResetGivesResetValues. -/
def Obligations.OnlyTclrTsetAndSrstCommandsChangeTheTable : Prop :=
  ∀ (i : Instr) (s t : State), exec i s = .next t → t.table ≠ s.table →
    i = .srst ∨ (isTableCommand i = true ∧ s.mode = .idle ∧ s.fault = .noFault)

/-- NOP, SRST, TCLR and TSET with the same operands are idempotent (R59). -/
def Obligations.RepeatedSystemAndTableCommandsChangeNothing : Prop :=
  ∀ (i : Instr) (s t : State), (i = .nop ∨ i = .srst ∨ isTableCommand i = true) →
    exec i s = .next t → exec i t = .next t

/-! ### Frames (spec/10_state.md R20, column "written by") -/

/-- A table command writes nothing but table entries and FAULT, and TSET no entry but its symbol's. -/
def Obligations.TableCommandsFrame : Prop :=
  ∀ (i : Instr) (s t : State), isTableCommand i = true → exec i s = .next t →
    t = { s with table := t.table, fault := t.fault } ∧
    ∀ sym len cw, i = .tset sym len cw → ∀ other, other ≠ sym → tabRead t.table other = tabRead s.table other

/-- A pack command writes nothing but `acc`, `cnt`, MODE and FAULT, and appends to no stream but `BOUT`; every
table entry reads as before. -/
def Obligations.PackCommandsFrame : Prop :=
  ∀ (i : Instr) (s t : State), isPackCommand i = true → exec i s = .next t →
    t = { s with acc := t.acc, cnt := t.cnt, mode := t.mode, fault := t.fault, bout := t.bout } ∧
    s.bout <+: t.bout ∧ ∀ sym, tabRead t.table sym = tabRead s.table sym

/-- UBYTE and UEND write nothing but `hold`, `hold_v`, `mbuf`, `mlen`, `movf`, MODE and FAULT, MBIT none of the
first two, MEND nothing but MODE and FAULT; they append to no stream but `SOUT`, MEND to none; every table
entry reads as before. -/
def Obligations.DecodeCommandsFrame : Prop :=
  ∀ (i : Instr) (s t : State), isDecodeCommand i = true → exec i s = .next t →
    t = { s with
      hold := t.hold, holdV := t.holdV, mbuf := t.mbuf, mlen := t.mlen, movf := t.movf, mode := t.mode,
      fault := t.fault, sout := t.sout } ∧
    s.sout <+: t.sout ∧
    (∀ b, i = .mbit b → t.hold = s.hold ∧ t.holdV = s.holdV) ∧
    (i = .mend → t = { s with mode := t.mode, fault := t.fault }) ∧
    ∀ sym, tabRead t.table sym = tabRead s.table sym

/-! ### System and table commands (spec/40_system_table.md) -/

/-- R92: NOP, whatever its other fields hold, leaves every state as it is. -/
def Obligations.NopChangesNothing : Prop :=
  ∀ s : State, exec .nop s = .next s ∧ ∀ w : CmdWord, opField w = 0x00#8 → executeWord w s = .next s

/-- R93: SRST, whatever its other fields hold, is honoured in every state, faulted or not, puts every register at
its reset value and leaves the output streams; no other command is executed while `FAULT != 0`. -/
def Obligations.SrstRestoresResetState : Prop :=
  ∀ s : State,
    (∃ t, exec .srst s = .next t ∧ t.acc = 0 ∧ t.cnt = 0 ∧ t.hold = 0 ∧ t.holdV = false ∧ t.mbuf = 0 ∧
      t.mlen = 0 ∧ t.movf = false ∧ t.mode = .idle ∧ t.fault = .noFault ∧ (∀ sym, t.tv sym = false) ∧
      t.bout = s.bout ∧ t.sout = s.sout) ∧
    (∀ w : CmdWord, opField w = 0x01#8 → executeWord w s = exec .srst s) ∧
    ∀ i : Instr, i ≠ .srst → s.fault ≠ .noFault → exec i s = .next s

/-- R94: TCLR in IDLE invalidates every entry and changes nothing else; then the search finds nothing and PUTSYM
faults for every symbol. Outside IDLE it raises Sequence. -/
def Obligations.TclrInvalidatesEveryEntry : Prop :=
  ∀ s : State, s.fault = .noFault →
    (s.mode = .idle → ∃ t' : Table, exec .tclr s = .next { s with table := t' } ∧
      (∀ sym, tabRead t' sym = none) ∧ (∀ n c, lookup t' n c = none) ∧
      ∀ sym, exec (.putsym sym) { s with table := t' } = .next { s with table := t', fault := .unknownSymbol }) ∧
    (s.mode ≠ .idle → exec .tclr s = .next { s with fault := .sequence })

/-- R95: the search names the symbol of the entry with that length and that value where there is one, and nothing
otherwise; by I10 there is at most one, so no search order shows. -/
def Obligations.LookupNamesTheOneEntry : Prop :=
  ∀ (t : Table) (n : Byte) (c : Codeword), CodewordsDistinct t →
    (∀ sym, lookup t n c = some sym ↔ tabRead t sym = some { tlen := n, tcw := c }) ∧
    (lookup t n c = none ↔ ∀ sym, tabRead t sym ≠ some { tlen := n, tcw := c })

/-- R96: TSET raises Sequence, BadLength or DuplicateCodeword, in this order, and else writes entry `sym`, and
only it, with the length and the value masked to the length; an entry already valid is replaced. -/
def Obligations.TsetWritesItsEntryOrFaults : Prop :=
  ∀ (s : State) (sym : Symbol) (len : Byte) (cw : Codeword), s.fault = .noFault → CodewordsDistinct s.table →
    (s.mode ≠ .idle → exec (.tset sym len cw) s = .next { s with fault := .sequence }) ∧
    (s.mode = .idle → (len = 0 ∨ s.cfg.lmax < len.toNat) →
      exec (.tset sym len cw) s = .next { s with fault := .badLength }) ∧
    (s.mode = .idle → 1 ≤ len.toNat → len.toNat ≤ s.cfg.lmax →
      (∃ other, other ≠ sym ∧
        tabRead s.table other = some { tlen := len, tcw := BitVec.ofNat 255 (cw.toNat % 2 ^ len.toNat) }) →
      exec (.tset sym len cw) s = .next { s with fault := .duplicateCodeword }) ∧
    (s.mode = .idle → 1 ≤ len.toNat → len.toNat ≤ s.cfg.lmax →
      (∀ other, other ≠ sym →
        tabRead s.table other ≠ some { tlen := len, tcw := BitVec.ofNat 255 (cw.toNat % 2 ^ len.toNat) }) →
      ∃ t' : Table, exec (.tset sym len cw) s = .next { s with table := t' } ∧
        tabRead t' sym = some { tlen := len, tcw := BitVec.ofNat 255 (cw.toNat % 2 ^ len.toNat) } ∧
        ∀ other, other ≠ sym → tabRead t' other = tabRead s.table other)

/-- Loading order does not matter: two TSET sequences from one state that raise no fault and agree on the last
codeword given to each symbol leave the same state. The spec derives this law (R97) from R95 and R96. -/
def Obligations.LoadingOrderDoesNotMatter : Prop :=
  ∀ (s t t' : State) (l l' : List TsetArgs),
    execAll (l.map TsetArgs.instr) s = .next t → execAll (l'.map TsetArgs.instr) s = .next t' →
    t.fault = .noFault → t'.fault = .noFault → (∀ sym, lastGiven sym l = lastGiven sym l') → t = t'

/-! ### The packer (spec/41_pack.md) -/

/-- PackBit as a PUTBIT shows it: the bit lands at position `cnt` of `acc`, other positions stay, and the eighth
bit makes the byte leave (R110). -/
def Obligations.PutbitPacksOneBit : Prop :=
  ∀ (s : State) (cw : Codeword), s.fault = .noFault → s.mode ≠ .decode →
    ∃ a : Byte, (∀ j, j < 8 → a.getLsbD j = if j = s.cnt.toNat then cw.getLsbD 0 else s.acc.getLsbD j) ∧
      (s.cnt.toNat < 7 →
        exec (.putcw 1 cw) s = .next { s with mode := .pack, acc := a, cnt := s.cnt + 1 }) ∧
      (s.cnt.toNat = 7 →
        exec (.putcw 1 cw) s = .next { s with
          mode := .pack, acc := 0, cnt := 0, bout := s.bout ++ [{ data := a, last := false }] })

/-- PUTCW appends the codeword's LEN bits (R112), in the closed form the spec derives from PackBit (R111); outside
IDLE and PACK it raises Sequence, and for a length outside 1 to LMAX BadLength. -/
def Obligations.PutcwAppendsCodeword : Prop :=
  ∀ (s : State) (len : Byte) (cw : Codeword), s.fault = .noFault → s.acc.toNat < 2 ^ s.cnt.toNat →
    let n := len.toNat
    let k := s.cnt.toNat
    let v := s.acc.toNat + cw.toNat % 2 ^ n * 2 ^ k
    let m := (k + n) / 8
    (s.mode ≠ .decode → 1 ≤ n → n ≤ s.cfg.lmax →
      exec (.putcw len cw) s = .next { s with
        mode := .pack, acc := BitVec.ofNat 8 (v / 2 ^ (8 * m)), cnt := BitVec.ofNat 3 ((k + n) % 8),
        bout := s.bout ++ (List.range m).map fun j =>
          { data := BitVec.ofNat 8 (v / 2 ^ (8 * j)), last := false } } ∧
      v / 2 ^ (8 * m) < 2 ^ ((k + n) % 8)) ∧
    (s.mode = .decode → exec (.putcw len cw) s = .next { s with fault := .sequence }) ∧
    (s.mode ≠ .decode → (n = 0 ∨ s.cfg.lmax < n) → exec (.putcw len cw) s = .next { s with fault := .badLength })

/-- PUTSYM of a symbol with a valid entry appends the entry's bits, in the closed form the spec derives (R111,
R114), and is what PUTCW of that codeword does (R114 (a)); without an entry it raises UnknownSymbol, in DECODE
Sequence. -/
def Obligations.PutsymAppendsTableCodeword : Prop :=
  ∀ (s : State) (sym : Symbol), s.fault = .noFault → s.acc.toNat < 2 ^ s.cnt.toNat →
    EntriesInRange s.cfg s.table →
    (s.mode ≠ .decode → ∀ e, tabRead s.table sym = some e →
      let n := e.tlen.toNat
      let k := s.cnt.toNat
      let v := s.acc.toNat + e.tcw.toNat * 2 ^ k
      let m := (k + n) / 8
      exec (.putsym sym) s = .next { s with
        mode := .pack, acc := BitVec.ofNat 8 (v / 2 ^ (8 * m)), cnt := BitVec.ofNat 3 ((k + n) % 8),
        bout := s.bout ++ (List.range m).map fun j =>
          { data := BitVec.ofNat 8 (v / 2 ^ (8 * j)), last := false } } ∧
      exec (.putsym sym) s = exec (.putcw e.tlen e.tcw) s) ∧
    (s.mode ≠ .decode → tabRead s.table sym = none →
      exec (.putsym sym) s = .next { s with fault := .unknownSymbol }) ∧
    (s.mode = .decode → exec (.putsym sym) s = .next { s with fault := .sequence })

/-- R116: PFLUSH emits the final short group, if there is one, and then the padding-count byte marked last, and
closes the stream; in DECODE it raises Sequence. The table and everything else stay. -/
def Obligations.PflushEndsStreamWithPadding : Prop :=
  ∀ s : State, s.fault = .noFault →
    (s.mode ≠ .decode → s.cnt ≠ 0 →
      exec .pflush s = .next { s with
        acc := 0, cnt := 0, mode := .idle,
        bout := s.bout ++ [{ data := s.acc, last := false },
          { data := BitVec.ofNat 8 (8 - s.cnt.toNat), last := true }] }) ∧
    (s.mode ≠ .decode → s.cnt = 0 →
      exec .pflush s = .next { s with
        acc := 0, cnt := 0, mode := .idle, bout := s.bout ++ [{ data := 0, last := true }] }) ∧
    (s.mode = .decode → exec .pflush s = .next { s with fault := .sequence })

/-- R118: with T the number of bits packed since the stream opened, `cnt` is T mod 8 after every command, and
PFLUSH reports `8 - T mod 8`, or 0 when T is a multiple of 8. -/
def Obligations.CntIsTheBitCountModEight : Prop :=
  ∀ (s : State) (cmds : List Instr), Inv s → s.mode = .idle → s.fault = .noFault →
    (∀ i ∈ cmds, PacksWithoutFault s.cfg s.table i) →
    let total := (cmds.flatMap (packedBits s.table)).length
    let pad := if total % 8 = 0 then 0 else 8 - total % 8
    pad = (8 - total % 8) % 8 ∧ pad ≤ 7 ∧
    ∃ t u, execAll cmds s = .next t ∧ t.cnt.toNat = total % 8 ∧ exec .pflush t = .next u ∧
      u.bout.getLast? = some { data := BitVec.ofNat 8 pad, last := true }

/-- The whole-stream law of the packer: from IDLE, pack commands that do not fault and then PFLUSH append
`ceil(T / 8)` body bytes whose bits are the packed bits and zero filler, then the padding byte, and leave the
rest of the state as it was. The spec derives this law (R119). -/
def Obligations.PackStreamEmitsItsBits : Prop :=
  ∀ (s : State) (cmds : List Instr), Inv s → s.mode = .idle → s.fault = .noFault →
    (∀ i ∈ cmds, PacksWithoutFault s.cfg s.table i) →
    let x := cmds.flatMap (packedBits s.table)
    ∃ (body : List Byte) (pad : Byte),
      execAll (cmds ++ [.pflush]) s = .next { s with
        bout := s.bout ++ body.map (fun d => { data := d, last := false }) ++ [{ data := pad, last := true }] } ∧
      body.length = (x.length + 7) / 8 ∧
      (∀ k i, i < 8 → (hk : k < body.length) → body[k].getLsbD i = x.getD (8 * k + i) false) ∧
      x.length + pad.toNat = 8 * body.length ∧ pad.toNat ≤ 7

/-! ### The unpacker (spec/42_unpack.md) -/

/-- R132: UBYTE releases the eight bits of the held byte, if there is one, lowest bit first, holds the new
byte unexamined and opens the stream; in PACK it raises Sequence. -/
def Obligations.UbyteReleasesHeldByte : Prop :=
  ∀ (s : State) (b : Byte), s.fault = .noFault →
    (s.mode ≠ .pack → s.holdV = false →
      exec (.ubyte b) s = .next { s with mode := .decode, hold := b, holdV := true }) ∧
    (s.mode ≠ .pack → s.holdV = true →
      exec (.ubyte b) s = .next
        { deliverBits [s.hold.getLsbD 0, s.hold.getLsbD 1, s.hold.getLsbD 2, s.hold.getLsbD 3, s.hold.getLsbD 4,
            s.hold.getLsbD 5, s.hold.getLsbD 6, s.hold.getLsbD 7] s with
          mode := .decode, hold := b, holdV := true }) ∧
    (s.mode = .pack → exec (.ubyte b) s = .next { s with fault := .sequence })

/-- R134: UEND checks the mode and the padding count, releases all but the last `pad` bits of the held byte, drops
it, and ends the stream when no bits are left in the matcher, else raises UnknownCodeword. -/
def Obligations.UendReleasesAllButPadding : Prop :=
  ∀ (s : State) (pad : Byte), s.fault = .noFault →
    (s.mode = .pack → exec (.uend pad) s = .next { s with fault := .sequence }) ∧
    (s.mode ≠ .pack → (7 < pad.toNat ∨ (s.holdV = false ∧ pad ≠ 0)) →
      exec (.uend pad) s = .next { s with fault := .badPadding }) ∧
    (s.mode ≠ .pack → pad.toNat ≤ 7 → s.holdV = true →
      let d := deliverBits ((List.range (8 - pad.toNat)).map s.hold.getLsbD) s
      (d.mlen = 0 → exec (.uend pad) s = .next { d with hold := 0, holdV := false, mode := .idle }) ∧
      (d.mlen ≠ 0 →
        exec (.uend pad) s = .next { d with hold := 0, holdV := false, fault := .unknownCodeword })) ∧
    (s.mode ≠ .pack → s.holdV = false →
      (s.mlen = 0 → exec (.uend 0) s = .next { s with mode := .idle }) ∧
      (s.mlen ≠ 0 → exec (.uend 0) s = .next { s with fault := .unknownCodeword }))

/-- The dropped filler bits are not examined: two held bytes that agree on their first `8 - pad` bits end the
stream alike (R56). -/
def Obligations.FillerBitsAreNotExamined : Prop :=
  ∀ (s : State) (pad b b' : Byte), pad.toNat ≤ 7 → s.holdV = true → s.fault = .noFault → s.mode ≠ .pack →
    (∀ j, j < 8 - pad.toNat → b.getLsbD j = b'.getLsbD j) →
    exec (.uend pad) { s with hold := b } = exec (.uend pad) { s with hold := b' }

/-- The whole-stream law of the unpacker: from IDLE, UBYTE of each body byte and UEND deliver every bit of the
body, byte by byte and lowest bit first, but the last `pad`, and run the terminal check once. The spec derives
this law (R136). -/
def Obligations.DecodeStreamDeliversBody : Prop :=
  ∀ (s : State) (body : List Byte) (pad : Byte), Inv s → s.mode = .idle → s.fault = .noFault →
    pad.toNat ≤ 7 → (body ≠ [] ∨ pad = 0) →
    let x := (body.flatMap (bits 8)).take (8 * body.length - pad.toNat)
    let d := deliverBits x s
    execAll (body.map .ubyte ++ [.uend pad]) s =
      .next (if d.mlen = 0 then d else { d with mode := .decode, fault := .unknownCodeword })

/-! ### The matcher (spec/43_match.md) -/

/-- R150: DeliverBit, said on bit sequences: a full unmatched buffer drops the bit; a buffer that becomes a
codeword emits its symbol and empties; else the bit is kept, and a buffer that is full sets `movf`. The length
never exceeds LMAX. -/
def Obligations.DeliverBitMatchesWholeCodewords : Prop :=
  ∀ (s : State) (b : Bool), Inv s →
    (s.movf = true → deliverBit s b = s) ∧
    (s.movf = false →
      (∀ sym e, tabRead s.table sym = some e → e.bits = bits s.mlen.toNat s.mbuf ++ [b] →
        deliverBit s b = { s with mbuf := 0, mlen := 0, sout := s.sout ++ [sym] }) ∧
      ((∀ sym e, tabRead s.table sym = some e → e.bits ≠ bits s.mlen.toNat s.mbuf ++ [b]) →
        deliverBit s b = { s with
          mbuf := BitVec.ofNat 255 (s.mbuf.toNat + b.toNat * 2 ^ s.mlen.toNat),
          mlen := BitVec.ofNat 8 (s.mlen.toNat + 1), movf := decide (s.mlen.toNat + 1 = s.cfg.lmax) })) ∧
    (deliverBit s b).mlen.toNat ≤ s.cfg.lmax

/-- R152: MBIT delivers its bit straight to the matcher and opens the stream, with at most one symbol; eight of
them do to the matcher what the release of a byte does. In PACK, or while a byte is held, it raises Sequence. -/
def Obligations.MbitDeliversOneBit : Prop :=
  ∀ (s : State) (bit : Bool), s.fault = .noFault →
    (s.mode = .pack ∨ s.holdV = true → exec (.mbit bit) s = .next { s with fault := .sequence }) ∧
    (s.mode ≠ .pack → s.holdV = false →
      exec (.mbit bit) s = .next { deliverBit s bit with mode := .decode } ∧
      ((deliverBit s bit).sout = s.sout ∨ ∃ sym, (deliverBit s bit).sout = s.sout ++ [sym]) ∧
      ∀ byte : Byte, execAll (mbits (bits 8 byte)) s = .next { release byte 8 s with mode := .decode })

/-- R154: MEND ends a bit-fed stream when the matcher's buffer is empty and raises UnknownCodeword when it is
not; in PACK, or while a byte is held, Sequence; with no byte held it is what `UEND 0` does. -/
def Obligations.MendEndsBitFedStream : Prop :=
  ∀ s : State, (s.holdV = false → exec .mend s = exec (.uend 0) s) ∧
    (s.fault = .noFault →
      (s.mode = .pack ∨ s.holdV = true → exec .mend s = .next { s with fault := .sequence }) ∧
      (s.mode ≠ .pack → s.holdV = false → s.mlen = 0 → exec .mend s = .next { s with mode := .idle }) ∧
      (s.mode ≠ .pack → s.holdV = false → s.mlen ≠ 0 →
        exec .mend s = .next { s with fault := .unknownCodeword }))

/-- Feeding the eight bits of a byte by MBIT and ending with MEND is what UBYTE and `UEND 0` do (R152 (a), R154 (b)). -/
def Obligations.EightMbitsEqualOneByte : Prop :=
  ∀ (s : State) (b : Byte), s.fault = .noFault → s.mode ≠ .pack → s.holdV = false → s.hold = 0 →
    execAll (mbits (bits 8 b) ++ [.mend]) s = execAll [.ubyte b, .uend 0] s

/-- The prefix-tree form: for every table that satisfies I9 and I10, prefix-free or not, the walk over the tree of
codewords emits the same symbols as the matcher and ends at the root exactly when the matcher's buffer is
empty. The spec derives this equivalence (R156). -/
def Obligations.MatcherIsPrefixTreeWalk : Prop :=
  ∀ (s : State) (x : List Bool), Inv s → s.mlen = 0 →
    (deliverBits x s).sout = s.sout ++ (walk s.table x).2 ∧
      ((deliverBits x s).mlen = 0 ↔ (walk s.table x).1 = .root)

/-- R157: with a prefix-free table a bit sequence has a parse into codewords and an unmatched remainder, and for
every such parse the matcher emits its symbols and keeps bits exactly when there is a remainder. -/
def Obligations.GreedyDecodeIsTheUniqueParse : Prop :=
  ∀ (s : State) (x : List Bool), Inv s → s.mlen = 0 → PrefixFree s.table →
    (∃ syms r, IsParse s.table x syms r) ∧
    ∀ syms r, IsParse s.table x syms r →
      (deliverBits x s).sout = s.sout ++ syms ∧ ((deliverBits x s).mlen = 0 ↔ r = [])

/-- The round trip through the block: with a prefix-free table, packing symbols and decoding the items of that
stream with the same table appends exactly those symbols, raises no fault and ends in IDLE. The spec derives
this law (R158). -/
def Obligations.RoundTripThroughBlock : Prop :=
  ∀ (s : State) (syms : List Symbol), Inv s → s.mode = .idle → s.fault = .noFault → PrefixFree s.table →
    (∀ sym ∈ syms, tabRead s.table sym ≠ none) →
    ∃ (t : State) (body : List Byte) (pad : Byte),
      execAll (syms.map .putsym ++ [.pflush]) s = .next t ∧
      t.bout = s.bout ++ body.map (fun d => { data := d, last := false }) ++ [{ data := pad, last := true }] ∧
      execAll (body.map .ubyte ++ [.uend pad]) t = .next { t with sout := t.sout ++ syms } ∧
      t.mode = .idle ∧ t.fault = .noFault ∧ t.sout = s.sout
end

