-- ==== Sys2Proof/Laws/Bits.lean ====
section
/-! SUPPORT. Bit sequences, masks and single-bit writes (spec/00_scope.md R8, R10). -/

namespace Sys2Proof

@[simp] theorem bits_length {w : Nat} (n : Nat) (c : BitVec w) : (bits n c).length = n := by simp [bits]

@[simp] theorem bits_zero {w : Nat} (c : BitVec w) : bits 0 c = [] := rfl

theorem bits_getElem {w : Nat} (n : Nat) (c : BitVec w) (i : Nat) (h : i < (bits n c).length) :
    (bits n c)[i] = c.getLsbD i := by simp [bits]

theorem bits_succ {w : Nat} (n : Nat) (c : BitVec w) : bits (n + 1) c = bits n c ++ [c.getLsbD n] := by
  simp [bits, List.range_succ]

theorem bits_take {w : Nat} {m n : Nat} (h : m ≤ n) (c : BitVec w) : (bits n c).take m = bits m c := by
  apply List.ext_getElem
  · simp [h]
  · intro i h1 h2
    simp [bits]

/-- The first n bits determine a value below 2^n. -/
theorem eq_of_bits_eq {w n : Nat} {a b : BitVec w} (ha : a.toNat < 2 ^ n) (hb : b.toNat < 2 ^ n)
    (h : bits n a = bits n b) : a = b := by
  apply BitVec.eq_of_getLsbD_eq
  intro i hi
  by_cases hn : i < n
  · have h1 := List.getElem_of_eq h (i := i) (by simpa using hn)
    simpa [bits] using h1
  · have hle : 2 ^ n ≤ 2 ^ i := Nat.pow_le_pow_right (by decide) (by omega)
    rw [BitVec.getLsbD, BitVec.getLsbD, Nat.testBit_lt_two_pow (by omega), Nat.testBit_lt_two_pow (by omega)]

/-- Entries of codewords below 2^length are equal when their bit sequences are. -/
theorem Machine.entry_eq_of_bits_eq {e e' : Machine.Entry} (he : e.tcw.toNat < 2 ^ e.tlen.toNat)
    (he' : e'.tcw.toNat < 2 ^ e'.tlen.toNat) (h : e.bits = e'.bits) : e = e' := by
  obtain ⟨n, c⟩ := e
  obtain ⟨n', c'⟩ := e'
  have hn : n.toNat = n'.toNat := by simpa [Machine.Entry.bits] using congrArg List.length h
  obtain rfl : n = n' := BitVec.eq_of_toNat_eq hn
  obtain rfl : c = c' := eq_of_bits_eq he he' h
  rfl

/-! ### Masks -/

@[simp] theorem mask_toNat {n : Nat} (h : n ≤ 255) : (mask n).toNat = 2 ^ n - 1 := by
  have : 2 ^ n ≤ 2 ^ 255 := Nat.pow_le_pow_right (by decide) h
  have : 0 < 2 ^ n := Nat.two_pow_pos n
  simp only [mask, BitVec.toNat_ofNat]
  exact Nat.mod_eq_of_lt (by omega)

theorem and_mask_toNat {n : Nat} (h : n ≤ 255) (c : Codeword) : (c &&& mask n).toNat = c.toNat % 2 ^ n := by
  rw [BitVec.toNat_and, mask_toNat h, Nat.and_two_pow_sub_one_eq_mod]

theorem and_mask_lt {n : Nat} (h : n ≤ 255) (c : Codeword) : (c &&& mask n).toNat < 2 ^ n := by
  rw [and_mask_toNat h]
  exact Nat.mod_lt _ (Nat.two_pow_pos n)

theorem and_mask_of_lt {n : Nat} (h : n ≤ 255) {c : Codeword} (hc : c.toNat < 2 ^ n) : c &&& mask n = c := by
  apply BitVec.eq_of_toNat_eq
  rw [and_mask_toNat h, Nat.mod_eq_of_lt hc]

theorem getLsbD_and_mask {n : Nat} (h : n ≤ 255) (c : Codeword) (i : Nat) :
    (c &&& mask n).getLsbD i = (decide (i < n) && c.getLsbD i) := by
  rw [BitVec.getLsbD, and_mask_toNat h, Nat.testBit_mod_two_pow, BitVec.getLsbD]

theorem bits_and_mask {n : Nat} (h : n ≤ 255) (c : Codeword) : bits n (c &&& mask n) = bits n c := by
  apply List.ext_getElem
  · simp
  · intro i h1 h2
    have hi : i < n := by simpa using h1
    rw [bits_getElem, bits_getElem, getLsbD_and_mask h]
    simp [hi]

/-! ### Values of bit sequences -/

theorem valNat_lt (bs : List Bool) : valNat bs < 2 ^ bs.length := by
  induction bs with
  | nil => simp [valNat]
  | cons b bs ih => cases b <;> simp [valNat, Nat.pow_succ] <;> omega

theorem valNat_append (xs ys : List Bool) : valNat (xs ++ ys) = valNat xs + 2 ^ xs.length * valNat ys := by
  induction xs with
  | nil => simp [valNat]
  | cons b xs ih =>
    simp only [List.cons_append, valNat, ih, List.length_cons, Nat.pow_succ]
    ring

theorem testBit_valNat (bs : List Bool) (i : Nat) : (valNat bs).testBit i = bs.getD i false := by
  induction bs generalizing i with
  | nil => simp [valNat]
  | cons b bs ih =>
    cases i with
    | zero => cases b <;> simp [valNat, Nat.testBit_zero]
    | succ i =>
      have h2 : (b.toNat + 2 * valNat bs) / 2 = valNat bs := by
        cases b
        · simp
        · simp only [Bool.toNat_true]; omega
      rw [valNat, Nat.testBit_succ, h2, ih]
      simp

theorem valNat_bits {w : Nat} (n : Nat) (c : BitVec w) : valNat (bits n c) = c.toNat % 2 ^ n := by
  apply Nat.eq_of_testBit_eq
  intro i
  rw [testBit_valNat, Nat.testBit_mod_two_pow]
  by_cases h : i < n
  · simp [h, bits, BitVec.getLsbD]
  · simp [h]

end Sys2Proof

namespace Sys2Proof.Machine

/-! ### Writing one bit -/

theorem getLsbD_setBit {w : Nat} (v : BitVec w) {i : Nat} (hi : i < w) (b : Bool) (j : Nat) :
    (setBit v i b).getLsbD j = if j = i then b else v.getLsbD j := by
  unfold setBit
  by_cases hj : j = i
  · subst hj
    cases b <;> simp [hi]
  · have hs : (1#w <<< i).getLsbD j = false := by
      simp only [BitVec.getLsbD_shiftLeft, BitVec.getLsbD_one, Bool.and_eq_false_iff]
      simp only [Bool.not_eq_false', decide_eq_true_eq, decide_eq_false_iff_not]
      omega
    cases b
    · by_cases hw : j < w
      · simp only [Bool.false_eq_true, if_false, BitVec.getLsbD_and, BitVec.getLsbD_not, hs, hw, hj,
          decide_true, Bool.not_false, Bool.and_true]
      · have : v.getLsbD j = false := BitVec.getLsbD_of_ge v j (by omega)
        simp [this, hj]
    · simp only [if_true, BitVec.getLsbD_or, hs, Bool.or_false, hj, if_false]

/-- Writing bit i of a value below 2^i adds the bit at its weight. -/
theorem setBit_toNat {w : Nat} {v : BitVec w} {i : Nat} (hi : i < w) (hv : v.toNat < 2 ^ i) (b : Bool) :
    (setBit v i b).toNat = v.toNat + b.toNat * 2 ^ i := by
  apply Nat.eq_of_testBit_eq
  intro j
  have h1 : (setBit v i b).toNat.testBit j = (setBit v i b).getLsbD j := rfl
  rw [h1, getLsbD_setBit v hi]
  have hv' : v.toNat + b.toNat * 2 ^ i = 2 ^ i * b.toNat + v.toNat := by ring
  rw [hv', Nat.testBit_two_pow_mul_add _ hv]
  by_cases hj : j = i
  · subst hj; cases b <;> simp
  · by_cases hlt : j < i
    · simp [hj, hlt, BitVec.getLsbD]
    · have h3 : v.getLsbD j = false := by
        rw [BitVec.getLsbD]
        exact Nat.testBit_lt_two_pow (lt_of_lt_of_le hv (Nat.pow_le_pow_right (by decide) (by omega)))
      have h4 : ∃ k, j - i = k + 1 := ⟨j - i - 1, by omega⟩
      obtain ⟨k, hk⟩ := h4
      cases b <;> simp [hj, hlt, h3, hk, Nat.testBit_succ]

theorem setBit_lt {w : Nat} {v : BitVec w} {i : Nat} (hi : i < w) (hv : v.toNat < 2 ^ i) (b : Bool) :
    (setBit v i b).toNat < 2 ^ (i + 1) := by
  rw [setBit_toNat hi hv, Nat.pow_succ]
  cases b <;> simp <;> omega

/-- The bits of a value with one more bit written after its first i. -/
theorem bits_setBit {w : Nat} (v : BitVec w) {i : Nat} (hi : i < w) (b : Bool) :
    bits (i + 1) (setBit v i b) = bits i v ++ [b] := by
  rw [bits_succ, getLsbD_setBit v hi, if_pos rfl]
  congr 1
  apply List.ext_getElem
  · simp
  · intro j h1 h2
    have hj : j < i := by simpa using h1
    rw [bits_getElem, bits_getElem, getLsbD_setBit v hi, if_neg (by omega)]

end Sys2Proof.Machine
end

