-- ==== Sys2Proof/Laws/Decode.lean ====
section
/-! SUPPORT. The fields of an assembled word, and decoding by opcode (spec/30_encoding.md R70, R72). -/

namespace Sys2Proof

@[simp] theorem opField_assemble (op len a : Byte) (cw : Codeword) : opField (assemble op len a cw) = op := by
  apply BitVec.eq_of_getLsbD_eq
  intro i hi
  simp only [opField, assemble, BitVec.getLsbD_extractLsb', BitVec.getLsbD_append, Nat.zero_add]
  simp [hi]

@[simp] theorem lenField_assemble (op len a : Byte) (cw : Codeword) : lenField (assemble op len a cw) = len := by
  apply BitVec.eq_of_getLsbD_eq
  intro i hi
  simp only [lenField, assemble, BitVec.getLsbD_extractLsb', BitVec.getLsbD_append]
  simp [hi]

@[simp] theorem aField_assemble (op len a : Byte) (cw : Codeword) : aField (assemble op len a cw) = a := by
  apply BitVec.eq_of_getLsbD_eq
  intro i hi
  simp only [aField, assemble, BitVec.getLsbD_extractLsb', BitVec.getLsbD_append]
  have h1 : ¬ 16 + i < 8 := by omega
  have h2 : ¬ 16 + i - 8 < 8 := by omega
  have h3 : 16 + i - 8 - 8 = i := by omega
  simp [hi, h1, h2, h3]

theorem rawCwField_assemble (op len a : Byte) (cw : Codeword) :
    (assemble op len a cw).extractLsb' 24 255 = cw := by
  apply BitVec.eq_of_getLsbD_eq
  intro i hi
  simp only [assemble, BitVec.getLsbD_extractLsb', BitVec.getLsbD_append]
  have h1 : ¬ 24 + i < 8 := by omega
  have h2 : ¬ 24 + i - 8 < 8 := by omega
  have h3 : ¬ 24 + i - 8 - 8 < 8 := by omega
  have h4 : 24 + i - 8 - 8 - 8 = i := by omega
  simp [hi, h1, h2, h3, h4]

@[simp] theorem cwField_assemble (c : Config) (op len a : Byte) (cw : Codeword) :
    cwField c (assemble op len a cw) = cw &&& mask c.lmax := by
  rw [cwField, rawCwField_assemble]

theorem Config.lmax_le_255 (c : Config) : c.lmax ≤ 255 := by
  have := c.lmaxLess1.isLt
  simp only [Config.lmax]; omega

/-- The `CW` field of a word has LMAX bits. -/
theorem codewordFits_cwField (c : Config) (w : CmdWord) : codewordFits c (cwField c w) = true := by
  rw [codewordFits, decide_eq_true_eq]
  exact and_mask_lt c.lmax_le_255 _

/-- An assembled word, as the integer of R70. -/
theorem assemble_toNat (op len a : Byte) (cw : Codeword) :
    (assemble op len a cw).toNat =
      op.toNat + len.toNat * 2 ^ 8 + a.toNat * 2 ^ 16 + cw.toNat * 2 ^ 24 := by
  have h1 := op.isLt
  have h2 := len.isLt
  have h3 := a.isLt
  rw [assemble, BitVec.toNat_append, BitVec.toNat_append, BitVec.toNat_append,
    ← Nat.shiftLeft_add_eq_or_of_lt h1, ← Nat.shiftLeft_add_eq_or_of_lt h2, ← Nat.shiftLeft_add_eq_or_of_lt h3]
  simp only [Nat.shiftLeft_eq]
  omega

/-- The eleven opcodes (R72). -/
def opcodes : List Byte := [0x00#8, 0x01#8, 0x10#8, 0x11#8, 0x20#8, 0x21#8, 0x22#8, 0x30#8, 0x31#8, 0x32#8, 0x33#8]

/-- A decoded command has the opcode of the word (R72). -/
theorem opcode_of_decode {c : Config} {w : CmdWord} {i : Instr} (h : decode c w = .command i) :
    i.opcode = opField w := by
  unfold decode at h
  split at h <;> first
    | (cases h; exact BitVec.eq_of_toNat_eq (by simp only [Instr.opcode]; rename_i hop; exact hop.symm))
    | cases h

/-- A decoded command is well-formed for the block (R70). -/
theorem wf_of_decode {c : Config} {w : CmdWord} {i : Instr} (h : decode c w = .command i) : i.wf c = true := by
  unfold decode at h
  split at h <;> first
    | (cases h; first | rfl | exact codewordFits_cwField c w)
    | cases h

end Sys2Proof
end

