-- ==== Sys2Proof/Laws/State.lean ====
section
/-! SUPPORT. One lemma per field for each named update of State, true by rfl, so that no proof unfolds a record
update. -/

namespace Sys2Proof.Machine

/-! ### raise -/

@[simp] theorem raise_cfg (f : FaultCode) (s : State) : (raise f s).cfg = s.cfg := rfl
@[simp] theorem raise_acc (f : FaultCode) (s : State) : (raise f s).acc = s.acc := rfl
@[simp] theorem raise_cnt (f : FaultCode) (s : State) : (raise f s).cnt = s.cnt := rfl
@[simp] theorem raise_hold (f : FaultCode) (s : State) : (raise f s).hold = s.hold := rfl
@[simp] theorem raise_holdV (f : FaultCode) (s : State) : (raise f s).holdV = s.holdV := rfl
@[simp] theorem raise_mbuf (f : FaultCode) (s : State) : (raise f s).mbuf = s.mbuf := rfl
@[simp] theorem raise_mlen (f : FaultCode) (s : State) : (raise f s).mlen = s.mlen := rfl
@[simp] theorem raise_movf (f : FaultCode) (s : State) : (raise f s).movf = s.movf := rfl
@[simp] theorem raise_mode (f : FaultCode) (s : State) : (raise f s).mode = s.mode := rfl
@[simp] theorem raise_fault (f : FaultCode) (s : State) : (raise f s).fault = f := rfl
@[simp] theorem raise_table (f : FaultCode) (s : State) : (raise f s).table = s.table := rfl
@[simp] theorem raise_pending (f : FaultCode) (s : State) : (raise f s).pending = s.pending := rfl
@[simp] theorem raise_bout (f : FaultCode) (s : State) : (raise f s).bout = s.bout := rfl
@[simp] theorem raise_sout (f : FaultCode) (s : State) : (raise f s).sout = s.sout := rfl

/-! ### emitBout -/

@[simp] theorem emitBout_cfg (d : Byte) (l : Bool) (s : State) : (emitBout d l s).cfg = s.cfg := rfl
@[simp] theorem emitBout_acc (d : Byte) (l : Bool) (s : State) : (emitBout d l s).acc = s.acc := rfl
@[simp] theorem emitBout_cnt (d : Byte) (l : Bool) (s : State) : (emitBout d l s).cnt = s.cnt := rfl
@[simp] theorem emitBout_hold (d : Byte) (l : Bool) (s : State) : (emitBout d l s).hold = s.hold := rfl
@[simp] theorem emitBout_holdV (d : Byte) (l : Bool) (s : State) : (emitBout d l s).holdV = s.holdV := rfl
@[simp] theorem emitBout_mbuf (d : Byte) (l : Bool) (s : State) : (emitBout d l s).mbuf = s.mbuf := rfl
@[simp] theorem emitBout_mlen (d : Byte) (l : Bool) (s : State) : (emitBout d l s).mlen = s.mlen := rfl
@[simp] theorem emitBout_movf (d : Byte) (l : Bool) (s : State) : (emitBout d l s).movf = s.movf := rfl
@[simp] theorem emitBout_mode (d : Byte) (l : Bool) (s : State) : (emitBout d l s).mode = s.mode := rfl
@[simp] theorem emitBout_fault (d : Byte) (l : Bool) (s : State) : (emitBout d l s).fault = s.fault := rfl
@[simp] theorem emitBout_table (d : Byte) (l : Bool) (s : State) : (emitBout d l s).table = s.table := rfl
@[simp] theorem emitBout_pending (d : Byte) (l : Bool) (s : State) : (emitBout d l s).pending = s.pending := rfl
@[simp] theorem emitBout_bout (d : Byte) (l : Bool) (s : State) : (emitBout d l s).bout = s.bout ++ [{ data := d, last := l }] := rfl
@[simp] theorem emitBout_sout (d : Byte) (l : Bool) (s : State) : (emitBout d l s).sout = s.sout := rfl

/-! ### emitSout -/

@[simp] theorem emitSout_cfg (sym : Symbol) (s : State) : (emitSout sym s).cfg = s.cfg := rfl
@[simp] theorem emitSout_acc (sym : Symbol) (s : State) : (emitSout sym s).acc = s.acc := rfl
@[simp] theorem emitSout_cnt (sym : Symbol) (s : State) : (emitSout sym s).cnt = s.cnt := rfl
@[simp] theorem emitSout_hold (sym : Symbol) (s : State) : (emitSout sym s).hold = s.hold := rfl
@[simp] theorem emitSout_holdV (sym : Symbol) (s : State) : (emitSout sym s).holdV = s.holdV := rfl
@[simp] theorem emitSout_mbuf (sym : Symbol) (s : State) : (emitSout sym s).mbuf = s.mbuf := rfl
@[simp] theorem emitSout_mlen (sym : Symbol) (s : State) : (emitSout sym s).mlen = s.mlen := rfl
@[simp] theorem emitSout_movf (sym : Symbol) (s : State) : (emitSout sym s).movf = s.movf := rfl
@[simp] theorem emitSout_mode (sym : Symbol) (s : State) : (emitSout sym s).mode = s.mode := rfl
@[simp] theorem emitSout_fault (sym : Symbol) (s : State) : (emitSout sym s).fault = s.fault := rfl
@[simp] theorem emitSout_table (sym : Symbol) (s : State) : (emitSout sym s).table = s.table := rfl
@[simp] theorem emitSout_pending (sym : Symbol) (s : State) : (emitSout sym s).pending = s.pending := rfl
@[simp] theorem emitSout_bout (sym : Symbol) (s : State) : (emitSout sym s).bout = s.bout := rfl
@[simp] theorem emitSout_sout (sym : Symbol) (s : State) : (emitSout sym s).sout = s.sout ++ [sym] := rfl

/-! ### resetBlock -/

@[simp] theorem resetBlock_cfg (s : State) : (resetBlock s).cfg = s.cfg := rfl
@[simp] theorem resetBlock_acc (s : State) : (resetBlock s).acc = 0 := rfl
@[simp] theorem resetBlock_cnt (s : State) : (resetBlock s).cnt = 0 := rfl
@[simp] theorem resetBlock_hold (s : State) : (resetBlock s).hold = 0 := rfl
@[simp] theorem resetBlock_holdV (s : State) : (resetBlock s).holdV = false := rfl
@[simp] theorem resetBlock_mbuf (s : State) : (resetBlock s).mbuf = 0 := rfl
@[simp] theorem resetBlock_mlen (s : State) : (resetBlock s).mlen = 0 := rfl
@[simp] theorem resetBlock_movf (s : State) : (resetBlock s).movf = false := rfl
@[simp] theorem resetBlock_mode (s : State) : (resetBlock s).mode = .idle := rfl
@[simp] theorem resetBlock_fault (s : State) : (resetBlock s).fault = .noFault := rfl
@[simp] theorem resetBlock_table (s : State) : (resetBlock s).table = tabEmpty := rfl
@[simp] theorem resetBlock_pending (s : State) : (resetBlock s).pending = s.pending := rfl
@[simp] theorem resetBlock_bout (s : State) : (resetBlock s).bout = s.bout := rfl
@[simp] theorem resetBlock_sout (s : State) : (resetBlock s).sout = s.sout := rfl

/-! ### present -/

@[simp] theorem present_cfg (w : CmdWord) (s : State) : (present w s).cfg = s.cfg := rfl
@[simp] theorem present_acc (w : CmdWord) (s : State) : (present w s).acc = s.acc := rfl
@[simp] theorem present_cnt (w : CmdWord) (s : State) : (present w s).cnt = s.cnt := rfl
@[simp] theorem present_hold (w : CmdWord) (s : State) : (present w s).hold = s.hold := rfl
@[simp] theorem present_holdV (w : CmdWord) (s : State) : (present w s).holdV = s.holdV := rfl
@[simp] theorem present_mbuf (w : CmdWord) (s : State) : (present w s).mbuf = s.mbuf := rfl
@[simp] theorem present_mlen (w : CmdWord) (s : State) : (present w s).mlen = s.mlen := rfl
@[simp] theorem present_movf (w : CmdWord) (s : State) : (present w s).movf = s.movf := rfl
@[simp] theorem present_mode (w : CmdWord) (s : State) : (present w s).mode = s.mode := rfl
@[simp] theorem present_fault (w : CmdWord) (s : State) : (present w s).fault = s.fault := rfl
@[simp] theorem present_table (w : CmdWord) (s : State) : (present w s).table = s.table := rfl
@[simp] theorem present_pending (w : CmdWord) (s : State) : (present w s).pending = .command w :: s.pending := rfl
@[simp] theorem present_bout (w : CmdWord) (s : State) : (present w s).bout = s.bout := rfl
@[simp] theorem present_sout (w : CmdWord) (s : State) : (present w s).sout = s.sout := rfl

end Sys2Proof.Machine
end

