-- ==== Sys2Proof/Laws/Table.lean ====
section
/-! SUPPORT. The codeword table: read after write, the empty table, the content search
(spec/20_memory.md R51; spec/40_system_table.md R95). -/

namespace Sys2Proof.Machine

@[simp] theorem tabRead_tabWrite_same (t : Table) (sym : Symbol) (e : Entry) :
    tabRead (tabWrite t sym e) sym = some e := by
  simp [tabRead, tabWrite]

@[simp] theorem tabRead_tabWrite_other (t : Table) {sym other : Symbol} (e : Entry) (h : other ≠ sym) :
    tabRead (tabWrite t sym e) other = tabRead t other := by
  have : sym.toNat ≠ other.toNat := fun h' => h (BitVec.eq_of_toNat_eq h'.symm)
  simp [tabRead, tabWrite, this]

theorem tabRead_tabWrite (t : Table) (sym other : Symbol) (e : Entry) :
    tabRead (tabWrite t sym e) other = if other = sym then some e else tabRead t other := by
  by_cases h : other = sym
  · subst h; simp
  · simp [h]

@[simp] theorem tabRead_tabEmpty (sym : Symbol) : tabRead tabEmpty sym = none := by
  simp [tabRead, tabEmpty]

/-- Two tables that read the same at every symbol are equal. -/
theorem table_ext {t t' : Table} (h : ∀ sym, tabRead t sym = tabRead t' sym) : t = t' := by
  apply Vector.ext
  intro i hi
  have h1 := h (BitVec.ofNat 8 i)
  have h2 : (BitVec.ofNat 8 i).toNat = i := by simp [Nat.mod_eq_of_lt hi]
  simpa only [tabRead, h2] using h1

theorem tv_eq (s : State) (sym : Symbol) : s.tv sym = (tabRead s.table sym).isSome := rfl

/-! ### The content search -/

/-- What the search over a list names, if it names something. -/
theorem lookupFrom_some {e : Entry} {l : List (Option Entry)} {i : Nat} {sym : Symbol}
    (h : lookupFrom e l i = some sym) : ∃ k : Nat, ∃ hk : k < l.length, l[k] = some e ∧ sym = BitVec.ofNat 8 (i + k) := by
  induction l generalizing i with
  | nil => simp [lookupFrom] at h
  | cons x rest ih =>
    rw [lookupFrom] at h
    split at h
    · next hx => exact ⟨0, by simp, by simpa using hx, by simpa using h.symm⟩
    · obtain ⟨k, hk, h1, h2⟩ := ih h
      exact ⟨k + 1, by simpa using hk, by simpa using h1, by rw [h2]; congr 1; omega⟩

theorem lookupFrom_none {e : Entry} {l : List (Option Entry)} {i : Nat} :
    lookupFrom e l i = none ↔ some e ∉ l := by
  induction l generalizing i with
  | nil => simp [lookupFrom]
  | cons x rest ih =>
    rw [lookupFrom]
    split
    · next hx => simp [hx]
    · next hx => simp [ih, Ne.symm hx]

theorem mem_table_iff {t : Table} {e : Entry} :
    some e ∈ t.toList ↔ ∃ sym, tabRead t sym = some e := by
  rw [List.mem_iff_getElem]
  constructor
  · rintro ⟨k, hk, h⟩
    have hk' : k < 256 := by simpa using hk
    refine ⟨BitVec.ofNat 8 k, ?_⟩
    simpa [tabRead, Nat.mod_eq_of_lt hk'] using h
  · rintro ⟨sym, h⟩
    exact ⟨sym.toNat, by simpa using sym.isLt, by simpa [tabRead] using h⟩

/-- The symbol the search names holds the codeword. -/
theorem lookup_some {t : Table} {n : Byte} {c : Codeword} {sym : Symbol} (h : lookup t n c = some sym) :
    tabRead t sym = some { tlen := n, tcw := c } := by
  obtain ⟨k, hk, h1, h2⟩ := lookupFrom_some h
  have hk' : k < 256 := by simpa using hk
  subst h2
  simpa [tabRead, Nat.mod_eq_of_lt hk'] using h1

/-- The search names nothing exactly when no entry holds the codeword. -/
theorem lookup_none {t : Table} {n : Byte} {c : Codeword} :
    lookup t n c = none ↔ ∀ sym, tabRead t sym ≠ some { tlen := n, tcw := c } := by
  rw [lookup, lookupFrom_none, mem_table_iff]
  simp

/-- In a table without duplicates the search names the symbol of the codeword, whatever the search order
(R95). -/
theorem lookup_of_tabRead {t : Table} (hd : CodewordsDistinct t) {e : Entry} {sym : Symbol}
    (h : tabRead t sym = some e) : lookup t e.tlen e.tcw = some sym := by
  cases hl : lookup t e.tlen e.tcw with
  | none => exact absurd h (lookup_none.mp hl sym)
  | some sym' => rw [hd sym' sym e (lookup_some hl) h]

/-! ### Well-formed tables -/

theorem entriesInRange_tabEmpty (c : Config) : EntriesInRange c tabEmpty := by
  intro sym e h; simp at h

theorem codewordsDistinct_tabEmpty : CodewordsDistinct tabEmpty := by
  intro sym sym' e h; simp at h

/-- Writing an entry in range keeps all entries in range. -/
theorem entriesInRange_tabWrite {c : Config} {t : Table} (h : EntriesInRange c t) (sym : Symbol) {e : Entry}
    (he : 1 ≤ e.tlen.toNat ∧ e.tlen.toNat ≤ c.lmax ∧ e.tcw.toNat < 2 ^ e.tlen.toNat) :
    EntriesInRange c (tabWrite t sym e) := by
  intro x e' hx
  rw [tabRead_tabWrite] at hx
  split at hx
  · cases hx; exact he
  · exact h x e' hx

/-- Writing a codeword that no other symbol holds keeps the codewords distinct. -/
theorem codewordsDistinct_tabWrite {t : Table} (h : CodewordsDistinct t) (sym : Symbol) {e : Entry}
    (he : ∀ other, other ≠ sym → tabRead t other ≠ some e) : CodewordsDistinct (tabWrite t sym e) := by
  intro x y e' hx hy
  rw [tabRead_tabWrite] at hx hy
  split at hx <;> split at hy
  · simp_all
  · next h1 h2 => cases hx; exact absurd hy (he y h2)
  · next h1 h2 => cases hy; exact absurd hx (he x h1)
  · exact h x y e' hx hy

/-- Writing a codeword that is no prefix of another symbol's codeword, and has none of them as a prefix, keeps
a table prefix-free. -/
theorem prefixFree_tabWrite {t : Table} (h : PrefixFree t) (sym : Symbol) {e : Entry}
    (he : ∀ other e', other ≠ sym → tabRead t other = some e' → ¬ e.bits <+: e'.bits ∧ ¬ e'.bits <+: e.bits) :
    PrefixFree (tabWrite t sym e) := by
  intro x y e1 e2 hx hy hp
  rw [tabRead_tabWrite] at hx hy
  split at hx <;> split at hy
  · simp_all
  · next h1 h2 => cases hx; exact absurd hp (he y e2 h2 hy).1
  · next h1 h2 => cases hy; exact absurd hp (he x e1 h1 hx).2
  · exact h x y e1 e2 hx hy hp

theorem prefixFree_tabEmpty : PrefixFree tabEmpty := by
  intro x y e e' h; simp at h

/-- TSET's duplicate check, when it passes: no other symbol holds the codeword. -/
theorem heldByAnother_false {t : Table} {sym : Symbol} {e : Entry} (hd : CodewordsDistinct t)
    (h : heldByAnother t sym e = false) : ∀ other, other ≠ sym → tabRead t other ≠ some e := by
  intro other hne ho
  rw [heldByAnother, lookup_of_tabRead hd ho] at h
  simp [hne] at h

/-- TSET's duplicate check passes when no other symbol holds the codeword. -/
theorem heldByAnother_eq_false {t : Table} {sym : Symbol} {e : Entry}
    (h : ∀ other, other ≠ sym → tabRead t other ≠ some e) : heldByAnother t sym e = false := by
  rw [heldByAnother]
  split
  · rfl
  · next other hl =>
    by_contra hne
    exact h other (by simpa using hne) (lookup_some hl)

/-- TSET's duplicate check fails only when another symbol holds the codeword. -/
theorem heldByAnother_true {t : Table} {sym : Symbol} {e : Entry} (h : heldByAnother t sym e = true) :
    ∃ other, other ≠ sym ∧ tabRead t other = some e := by
  by_contra hn
  rw [heldByAnother_eq_false fun other hne ho => hn ⟨other, hne, ho⟩] at h
  cases h

end Sys2Proof.Machine
end

