-- ==== Sys2Proof/Laws/Matcher.lean ====
section
/-! SUPPORT. The matcher's datapath (spec/43_match.md R150): what DeliverBit does, what it leaves, and the
invariants it keeps. -/

namespace Sys2Proof.Machine

@[simp] theorem deliverBits_nil (s : State) : deliverBits [] s = s := rfl

@[simp] theorem deliverBits_cons (b : Bool) (bs : List Bool) (s : State) :
    deliverBits (b :: bs) s = deliverBits bs (deliverBit s b) := rfl

theorem deliverBits_append (xs ys : List Bool) (s : State) :
    deliverBits (xs ++ ys) s = deliverBits ys (deliverBits xs s) := by simp [deliverBits, List.foldl_append]

/-- The buffer after one more bit, before the match test (R150). -/
def grownBuffer (s : State) (b : Bool) : Codeword := setBit s.mbuf s.mlen.toNat b

/-! ### The three outcomes of DeliverBit -/

/-- The buffer is full and unmatched: the bit is dropped. -/
theorem deliverBit_dropped {s : State} (h : s.movf = true) (b : Bool) : deliverBit s b = s := if_pos h

/-- The buffer with the new bit is a codeword: its symbol is emitted and the buffer emptied. -/
theorem deliverBit_matched {s : State} (h : s.movf = false) {b : Bool} {sym : Symbol}
    (hl : lookup s.table (s.mlen + 1) (grownBuffer s b) = some sym) :
    deliverBit s b = { emitSout sym s with mbuf := 0, mlen := 0 } := by
  rw [grownBuffer] at hl
  simp only [deliverBit, h, Bool.false_eq_true, if_false, hl]

/-- The buffer with the new bit is no codeword: the bit is kept, and a full buffer sets `movf`. -/
theorem deliverBit_buffered {s : State} (h : s.movf = false) {b : Bool}
    (hl : lookup s.table (s.mlen + 1) (grownBuffer s b) = none) :
    deliverBit s b = { s with
      mbuf := grownBuffer s b, mlen := s.mlen + 1, movf := decide ((s.mlen + 1).toNat = s.cfg.lmax) } := by
  have hl' := hl
  rw [grownBuffer] at hl'
  simp only [deliverBit, h, Bool.false_eq_true, if_false, hl']
  rfl

/-- DeliverBit writes `mbuf`, `mlen`, `movf` and may append to `sout`; everything else stays. -/
theorem deliverBit_frame (s : State) (b : Bool) :
    deliverBit s b = { s with
      mbuf := (deliverBit s b).mbuf, mlen := (deliverBit s b).mlen,
      movf := (deliverBit s b).movf, sout := (deliverBit s b).sout } := by
  cases h : s.movf with
  | true => rw [deliverBit_dropped h]
  | false =>
    cases hl : lookup s.table (s.mlen + 1) (grownBuffer s b) with
    | none => rw [deliverBit_buffered h hl]
    | some sym => rw [deliverBit_matched h hl]; rfl

/-- The frame of DeliverBit over a bit sequence. -/
theorem deliverBits_frame (bs : List Bool) (s : State) :
    deliverBits bs s = { s with
      mbuf := (deliverBits bs s).mbuf, mlen := (deliverBits bs s).mlen,
      movf := (deliverBits bs s).movf, sout := (deliverBits bs s).sout } := by
  induction bs generalizing s with
  | nil => rfl
  | cons b bs ih =>
    rw [deliverBits_cons, ih (deliverBit s b)]
    rw [deliverBit_frame s b]

@[simp] theorem deliverBits_table (bs : List Bool) (s : State) : (deliverBits bs s).table = s.table := by
  rw [deliverBits_frame]

@[simp] theorem deliverBits_cfg (bs : List Bool) (s : State) : (deliverBits bs s).cfg = s.cfg := by
  rw [deliverBits_frame]

@[simp] theorem deliverBits_mode (bs : List Bool) (s : State) : (deliverBits bs s).mode = s.mode := by
  rw [deliverBits_frame]

@[simp] theorem deliverBits_fault (bs : List Bool) (s : State) : (deliverBits bs s).fault = s.fault := by
  rw [deliverBits_frame]

/-- The matcher's fields decide what it does: two states that agree on them, on the table and on the parameter
take the same matcher fields, and the other fields stay theirs. -/
theorem deliverBit_other_fields (s : State) (b : Bool) (hold : Byte) (holdV : Bool) (mode : Mode) :
    deliverBit { s with hold := hold, holdV := holdV, mode := mode } b =
      { deliverBit s b with hold := hold, holdV := holdV, mode := mode } := by
  rcases Bool.eq_false_or_eq_true s.movf with h | h
  · refine (deliverBit_dropped (s := { s with hold := hold, holdV := holdV, mode := mode }) h b).trans ?_
    rw [deliverBit_dropped h]
  · cases hl : lookup s.table (s.mlen + 1) (grownBuffer s b) with
    | none =>
      refine (deliverBit_buffered (s := { s with hold := hold, holdV := holdV, mode := mode }) h hl).trans ?_
      rw [deliverBit_buffered h hl]
      rfl
    | some sym =>
      refine (deliverBit_matched (s := { s with hold := hold, holdV := holdV, mode := mode }) h hl).trans ?_
      rw [deliverBit_matched h hl]
      rfl

theorem deliverBits_other_fields (bs : List Bool) (s : State) (hold : Byte) (holdV : Bool) (mode : Mode) :
    deliverBits bs { s with hold := hold, holdV := holdV, mode := mode } =
      { deliverBits bs s with hold := hold, holdV := holdV, mode := mode } := by
  induction bs generalizing s with
  | nil => rfl
  | cons b bs ih => rw [deliverBits_cons, deliverBit_other_fields, ih, deliverBits_cons]

theorem deliverBits_withMode (bs : List Bool) (s : State) (mode : Mode) :
    deliverBits bs { s with mode := mode } = { deliverBits bs s with mode := mode } := by
  refine (deliverBits_other_fields bs s s.hold s.holdV mode).trans ?_
  rw [deliverBits_frame bs s]

theorem deliverBits_withHold (bs : List Bool) (s : State) (hold : Byte) (holdV : Bool) :
    deliverBits bs { s with hold := hold, holdV := holdV } =
      { deliverBits bs s with hold := hold, holdV := holdV } := by
  refine (deliverBits_other_fields bs s hold holdV s.mode).trans ?_
  rw [deliverBits_frame bs s]

/-- One bit emits at most one symbol, after those already emitted (R152). -/
theorem deliverBit_sout (s : State) (b : Bool) :
    (deliverBit s b).sout = s.sout ∨ ∃ sym, (deliverBit s b).sout = s.sout ++ [sym] := by
  cases h : s.movf with
  | true => rw [deliverBit_dropped h]; exact .inl rfl
  | false =>
    cases hl : lookup s.table (s.mlen + 1) (grownBuffer s b) with
    | none => rw [deliverBit_buffered h hl]; exact .inl rfl
    | some sym => rw [deliverBit_matched h hl]; exact .inr ⟨sym, rfl⟩

/-- A bit sequence appends to the symbol trace, at most one symbol a bit. -/
theorem deliverBits_sout (bs : List Bool) (s : State) :
    ∃ syms, (deliverBits bs s).sout = s.sout ++ syms ∧ syms.length ≤ bs.length := by
  induction bs generalizing s with
  | nil => exact ⟨[], by simp⟩
  | cons b bs ih =>
    obtain ⟨syms, h1, h2⟩ := ih (deliverBit s b)
    rcases deliverBit_sout s b with h | ⟨sym, h⟩
    · exact ⟨syms, by rw [deliverBits_cons, h1, h], by simp; omega⟩
    · exact ⟨sym :: syms, by rw [deliverBits_cons, h1, h]; simp, by simp; omega⟩

/-! ### The invariants of the matcher -/

/-- The part of the invariants (R27) that the matcher's step needs and keeps: I2, I3, I9, I11 and the room for
one more bit. -/
structure MatcherInv (s : State) : Prop where
  mbufClear : s.mbuf.toNat < 2 ^ s.mlen.toNat
  movfFull : s.movf = true → s.mlen.toNat = s.cfg.lmax
  entriesInRange : EntriesInRange s.cfg s.table
  bufferUnmatched : s.mlen ≠ 0 → ∀ sym : Symbol, tabRead s.table sym ≠ some { tlen := s.mlen, tcw := s.mbuf }
  bufferRoom : s.movf = false → s.mlen.toNat < s.cfg.lmax

theorem Inv.matcherInv {s : State} (h : Inv s) : MatcherInv s :=
  ⟨h.mbufClear, h.movfFull, h.entriesInRange, h.bufferUnmatched, h.bufferRoom⟩

theorem lmax_pos (c : Config) : 1 ≤ c.lmax := by simp [Config.lmax]

theorem lmax_le (c : Config) : c.lmax ≤ 255 := by
  have := c.lmaxLess1.isLt
  simp only [Config.lmax]; omega

/-- With room for one more bit, the new length does not wrap. -/
theorem mlen_succ_toNat {s : State} (h : s.mlen.toNat < s.cfg.lmax) : (s.mlen + 1).toNat = s.mlen.toNat + 1 := by
  have := lmax_le s.cfg
  rw [BitVec.toNat_add]
  simp only [BitVec.ofNat_eq_ofNat, BitVec.toNat_ofNat]
  omega

/-- The bits of the matcher's buffer, first in the stream first (R24). -/
def buffered (s : State) : List Bool := bits s.mlen.toNat s.mbuf

theorem buffered_length (s : State) : (buffered s).length = s.mlen.toNat := by simp [buffered]

theorem buffered_eq_nil {s : State} : buffered s = [] ↔ s.mlen = 0 := by
  rw [← List.length_eq_zero_iff, buffered_length]
  constructor
  · intro h; exact BitVec.eq_of_toNat_eq h
  · intro h; rw [h]; rfl

/-- The grown buffer holds one bit more, at the end. -/
theorem bits_grownBuffer {s : State} (h : s.mlen.toNat < s.cfg.lmax) (b : Bool) :
    bits (s.mlen.toNat + 1) (grownBuffer s b) = buffered s ++ [b] :=
  bits_setBit s.mbuf (lt_of_lt_of_le h (lmax_le s.cfg)) b

theorem grownBuffer_lt {s : State} (h : s.mlen.toNat < s.cfg.lmax) (hc : s.mbuf.toNat < 2 ^ s.mlen.toNat)
    (b : Bool) : (grownBuffer s b).toNat < 2 ^ (s.mlen.toNat + 1) :=
  setBit_lt (lt_of_lt_of_le h (lmax_le s.cfg)) hc b

/-- DeliverBit keeps the matcher's invariants. -/
theorem deliverBit_matcherInv {s : State} (h : MatcherInv s) (b : Bool) : MatcherInv (deliverBit s b) := by
  cases hm : s.movf with
  | true => rw [deliverBit_dropped hm]; exact h
  | false =>
    have hroom := h.bufferRoom hm
    have hsucc := mlen_succ_toNat hroom
    cases hl : lookup s.table (s.mlen + 1) (grownBuffer s b) with
    | some sym =>
      rw [deliverBit_matched hm hl]
      exact ⟨Nat.one_pos, fun hc => absurd (hm.symm.trans hc) (by simp), h.entriesInRange,
        fun hz => absurd rfl hz, fun _ => lmax_pos s.cfg⟩
    | none =>
      rw [deliverBit_buffered hm hl]
      refine ⟨?_, ?_, h.entriesInRange, fun _ => lookup_none.mp hl, ?_⟩
      · simp only [hsucc]; exact grownBuffer_lt hroom h.mbufClear b
      · intro hc; simpa using hc
      · intro hc
        have hne : (s.mlen + 1).toNat ≠ s.cfg.lmax := by simpa using hc
        simp only
        omega

theorem deliverBits_matcherInv {s : State} (h : MatcherInv s) (bs : List Bool) :
    MatcherInv (deliverBits bs s) := by
  induction bs generalizing s with
  | nil => exact h
  | cons b bs ih => exact ih (deliverBit_matcherInv h b)

/-! ### Matching, said on bit sequences -/

/-- The match test names a symbol exactly when its codeword is the buffered bits and the new one (R95, R150). -/
theorem lookup_grownBuffer {s : State} (h : MatcherInv s) (hd : CodewordsDistinct s.table) (hm : s.movf = false)
    (b : Bool) (sym : Symbol) :
    lookup s.table (s.mlen + 1) (grownBuffer s b) = some sym ↔
      ∃ e, tabRead s.table sym = some e ∧ e.bits = buffered s ++ [b] := by
  have hroom := h.bufferRoom hm
  have hsucc := mlen_succ_toNat hroom
  have hbits : Entry.bits { tlen := s.mlen + 1, tcw := grownBuffer s b } = buffered s ++ [b] := by
    rw [Entry.bits, hsucc]; exact bits_grownBuffer hroom b
  constructor
  · intro hl; exact ⟨_, lookup_some hl, hbits⟩
  · rintro ⟨e, he, hb⟩
    have heq : e = { tlen := s.mlen + 1, tcw := grownBuffer s b } := by
      apply entry_eq_of_bits_eq (h.entriesInRange sym e he).2.2
      · rw [hsucc]; exact grownBuffer_lt hroom h.mbufClear b
      · rw [hb, hbits]
    rw [heq] at he
    exact lookup_of_tabRead hd he

/-- Bits that no codeword completes, at any point of the sequence, are buffered or dropped: nothing is
emitted. -/
theorem deliverBit_unmatched {s : State} (h : MatcherInv s) (hd : CodewordsDistinct s.table) {b : Bool}
    (hn : ∀ sym e, tabRead s.table sym = some e → e.bits ≠ buffered s ++ [b]) (hm : s.movf = false) :
    deliverBit s b = { s with
      mbuf := grownBuffer s b, mlen := s.mlen + 1, movf := decide ((s.mlen + 1).toNat = s.cfg.lmax) } ∧
    buffered (deliverBit s b) = buffered s ++ [b] := by
  have hl : lookup s.table (s.mlen + 1) (grownBuffer s b) = none := by
    cases hl : lookup s.table (s.mlen + 1) (grownBuffer s b) with
    | none => rfl
    | some sym =>
      obtain ⟨e, he, hb⟩ := (lookup_grownBuffer h hd hm b sym).mp hl
      exact absurd hb (hn sym e he)
  rw [deliverBit_buffered hm hl]
  refine ⟨rfl, ?_⟩
  rw [buffered]
  simp only [mlen_succ_toNat (h.bufferRoom hm)]
  exact bits_grownBuffer (h.bufferRoom hm) b

end Sys2Proof.Machine
end

