-- ==== Sys2Proof/Laws/Packer.lean ====
section
/-! SUPPORT. The packer's datapath (spec/41_pack.md R110, R111): what PackBit does, what it leaves, and the
closed form of a whole bit sequence. -/

namespace Sys2Proof.Machine

@[simp] theorem packBits_nil (s : State) : packBits [] s = s := rfl

@[simp] theorem packBits_cons (b : Bool) (bs : List Bool) (s : State) :
    packBits (b :: bs) s = packBits bs (packBit s b) := rfl

theorem packBits_append (xs ys : List Bool) (s : State) :
    packBits (xs ++ ys) s = packBits ys (packBits xs s) := by simp [packBits, List.foldl_append]

/-- PackBit on the eighth bit of a group: the byte leaves. -/
theorem packBit_eighth {s : State} (h : s.cnt = 7) (b : Bool) :
    packBit s b = { emitBout (setBit s.acc s.cnt.toNat b) false s with acc := 0, cnt := 0 } := if_pos h

/-- PackBit on an earlier bit of a group: the bit waits. -/
theorem packBit_earlier {s : State} (h : s.cnt ≠ 7) (b : Bool) :
    packBit s b = { s with acc := setBit s.acc s.cnt.toNat b, cnt := s.cnt + 1 } := if_neg h

/-- PackBit writes `acc` and `cnt` and may append to `bout`; everything else stays. -/
theorem packBit_frame (s : State) (b : Bool) :
    packBit s b = { s with
      acc := (packBit s b).acc, cnt := (packBit s b).cnt, bout := (packBit s b).bout } := by
  by_cases h : s.cnt = 7
  · rw [packBit_eighth h]; rfl
  · rw [packBit_earlier h]

/-- The frame of PackBit over a bit sequence. -/
theorem packBits_frame (bs : List Bool) (s : State) :
    packBits bs s = { s with
      acc := (packBits bs s).acc, cnt := (packBits bs s).cnt, bout := (packBits bs s).bout } := by
  induction bs generalizing s with
  | nil => rfl
  | cons b bs ih =>
    rw [packBits_cons, ih (packBit s b)]
    rw [packBit_frame s b]

/-- PackBit keeps invariant I1 (R110). -/
theorem packBit_accClear {s : State} (h : s.acc.toNat < 2 ^ s.cnt.toNat) (b : Bool) :
    (packBit s b).acc.toNat < 2 ^ (packBit s b).cnt.toNat := by
  have hc : s.cnt.toNat < 8 := s.cnt.isLt
  by_cases h7 : s.cnt = 7
  · rw [packBit_eighth h7]; exact Nat.one_pos
  · have hne : s.cnt.toNat ≠ 7 := fun h' => h7 (BitVec.eq_of_toNat_eq h')
    have h1 : (s.cnt + 1).toNat = s.cnt.toNat + 1 := by
      rw [BitVec.toNat_add]; simp; omega
    rw [packBit_earlier h7]
    simp only [h1]
    exact setBit_lt hc h b

theorem packBits_accClear {s : State} (h : s.acc.toNat < 2 ^ s.cnt.toNat) (bs : List Bool) :
    (packBits bs s).acc.toNat < 2 ^ (packBits bs s).cnt.toNat := by
  induction bs generalizing s with
  | nil => exact h
  | cons b bs ih => exact ih (packBit_accClear h b)

/-- The bits that wait in `acc`, first in the stream first (R21). -/
def waiting (s : State) : List Bool := bits s.cnt.toNat s.acc

/-- The whole bytes of a bit sequence, as body items: bit i of byte j is bit 8j + i of the sequence (R53). -/
def fullBytes : List Bool → List BoutItem
  | b0 :: b1 :: b2 :: b3 :: b4 :: b5 :: b6 :: b7 :: rest =>
    { data := BitVec.ofNat 8 (valNat [b0, b1, b2, b3, b4, b5, b6, b7]), last := false } :: fullBytes rest
  | _ => []

theorem fullBytes_short {bs : List Bool} (h : bs.length < 8) : fullBytes bs = [] := by
  match bs, h with
  | [], _ => rfl
  | [_], _ => rfl
  | [_, _], _ => rfl
  | [_, _, _], _ => rfl
  | [_, _, _, _], _ => rfl
  | [_, _, _, _, _], _ => rfl
  | [_, _, _, _, _, _], _ => rfl
  | [_, _, _, _, _, _, _], _ => rfl

theorem fullBytes_eight {g : List Bool} (h : g.length = 8) (rest : List Bool) :
    fullBytes (g ++ rest) = { data := BitVec.ofNat 8 (valNat g), last := false } :: fullBytes rest := by
  match g, h with
  | [b0, b1, b2, b3, b4, b5, b6, b7], _ => rfl

/-- One PackBit, said on the waiting bits: they grow by one, or the eighth makes a byte. -/
theorem packBit_waiting (s : State) (b : Bool) :
    (packBit s b).bout = s.bout ++ fullBytes (waiting s ++ [b]) ∧
      waiting (packBit s b) = if (waiting s).length = 7 then [] else waiting s ++ [b] := by
  have hc : s.cnt.toNat < 8 := s.cnt.isLt
  have hlen : (waiting s).length = s.cnt.toNat := by simp [waiting]
  by_cases h7 : s.cnt = 7
  · have h7' : s.cnt.toNat = 7 := by rw [h7]; rfl
    have hval : setBit s.acc s.cnt.toNat b = BitVec.ofNat 8 (valNat (waiting s ++ [b])) := by
      rw [waiting, ← bits_setBit s.acc hc, valNat_bits, h7']
      apply BitVec.eq_of_toNat_eq
      have := (setBit s.acc 7 b).isLt
      simp only [BitVec.toNat_ofNat]
      omega
    have hfb := fullBytes_eight (g := waiting s ++ [b]) (by simp [hlen, h7']) []
    rw [List.append_nil] at hfb
    rw [hfb, if_pos (by omega), packBit_eighth h7, ← hval]
    exact ⟨rfl, rfl⟩
  · have hne : s.cnt.toNat ≠ 7 := fun h' => h7 (BitVec.eq_of_toNat_eq h')
    have h1 : (s.cnt + 1).toNat = s.cnt.toNat + 1 := by rw [BitVec.toNat_add]; simp; omega
    rw [fullBytes_short (by simp [hlen]; omega), if_neg (by omega), packBit_earlier h7]
    refine ⟨by simp, ?_⟩
    simp only [waiting, h1]
    exact bits_setBit s.acc hc b

/-- The bits left over after the whole bytes of a sequence. -/
def leftover (bs : List Bool) : List Bool := bs.drop (8 * (bs.length / 8))

theorem leftover_length (bs : List Bool) : (leftover bs).length = bs.length % 8 := by
  simp only [leftover, List.length_drop]; omega

theorem leftover_short {bs : List Bool} (h : bs.length < 8) : leftover bs = bs := by
  simp [leftover, Nat.div_eq_of_lt h]

theorem leftover_eight {g : List Bool} (h : g.length = 8) (rest : List Bool) :
    leftover (g ++ rest) = leftover rest := by
  have h1 : 8 * ((g ++ rest).length / 8) = 8 + 8 * (rest.length / 8) := by
    simp only [List.length_append, h]; omega
  rw [leftover, h1, leftover, ← List.drop_drop]
  congr 1
  rw [← h, List.drop_left]

/-- PackBit over a bit sequence: the waiting bits followed by the sequence are cut into bytes, and what is left
over waits. -/
theorem packBits_waiting (s : State) (bs : List Bool) :
    (packBits bs s).bout = s.bout ++ fullBytes (waiting s ++ bs) ∧
      waiting (packBits bs s) = leftover (waiting s ++ bs) := by
  induction bs generalizing s with
  | nil =>
    have hc : s.cnt.toNat < 8 := s.cnt.isLt
    have hlen : (waiting s).length < 8 := by simpa [waiting] using hc
    simp [fullBytes_short hlen, leftover_short hlen]
  | cons b bs ih =>
    obtain ⟨h1, h2⟩ := packBit_waiting s b
    obtain ⟨h3, h4⟩ := ih (packBit s b)
    have hc : (waiting s).length < 8 := by simpa [waiting] using s.cnt.isLt
    have happ : waiting s ++ b :: bs = (waiting s ++ [b]) ++ bs := by simp
    rw [packBits_cons, h3, h4, h1, h2, happ]
    by_cases h7 : (waiting s).length = 7
    · have h8 : (waiting s ++ [b]).length = 8 := by simp [h7]
      rw [if_pos h7, fullBytes_eight h8, leftover_eight h8]
      have := fullBytes_eight h8 []
      rw [List.append_nil] at this
      rw [this]
      simp [fullBytes]
    · rw [if_neg h7, fullBytes_short (by simp; omega)]
      simp

/-- `acc` and `cnt`, read back from the waiting bits. -/
theorem acc_of_waiting {s : State} (h : s.acc.toNat < 2 ^ s.cnt.toNat) :
    s.acc = BitVec.ofNat 8 (valNat (waiting s)) := by
  rw [waiting, valNat_bits, Nat.mod_eq_of_lt h]
  simp

theorem cnt_of_waiting (s : State) : s.cnt = BitVec.ofNat 3 (waiting s).length := by
  simp [waiting]

/-- The body items of a bit sequence: one per whole group of 8 (R54). -/
theorem fullBytes_eq_map (bs : List Bool) :
    fullBytes bs = (List.range (bs.length / 8)).map fun j =>
      { data := BitVec.ofNat 8 (valNat ((bs.drop (8 * j)).take 8)), last := false } := by
  induction hn : bs.length / 8 generalizing bs with
  | zero => rw [fullBytes_short (by omega)]; rfl
  | succ n ih =>
    have hlen : 8 ≤ bs.length := by omega
    have h8 : (bs.take 8).length = 8 := by simp; omega
    have hcut : bs = bs.take 8 ++ bs.drop 8 := (List.take_append_drop 8 bs).symm
    have hrest : (bs.drop 8).length / 8 = n := by rw [List.length_drop]; omega
    conv_lhs => rw [hcut]
    rw [fullBytes_eight h8, ih _ hrest, List.range_succ_eq_map, List.map_cons, List.map_map]
    congr 1
    apply List.map_congr_left
    intro j _
    simp only [Function.comp, List.drop_drop]
    rw [show 8 + 8 * j = 8 * j.succ by omega]

/-- A group of 8 bits of a sequence, as a number, from the value of the sequence. -/
theorem valNat_group (bs : List Bool) (j : Nat) :
    valNat ((bs.drop (8 * j)).take 8) = valNat bs / 2 ^ (8 * j) % 2 ^ 8 := by
  apply Nat.eq_of_testBit_eq
  intro i
  rw [testBit_valNat, Nat.testBit_mod_two_pow, Nat.testBit_div_two_pow, testBit_valNat]
  by_cases h : i < 8
  · simp [h, List.getD_eq_getElem?_getD, Nat.add_comm]
  · simp [h, List.getD_eq_getElem?_getD]

/-- The bytes of a sequence cut in two: those of the first part, then those of what it leaves over and the
second. -/
theorem fullBytes_append (xs ys : List Bool) :
    fullBytes (xs ++ ys) = fullBytes xs ++ fullBytes (leftover xs ++ ys) := by
  induction hn : xs.length / 8 generalizing xs with
  | zero => rw [fullBytes_short (bs := xs) (by omega), leftover_short (by omega)]; rfl
  | succ n ih =>
    have h8 : (xs.take 8).length = 8 := by rw [List.length_take]; omega
    have hcut : xs = xs.take 8 ++ xs.drop 8 := (List.take_append_drop 8 xs).symm
    rw [hcut, List.append_assoc, fullBytes_eight h8, fullBytes_eight h8, leftover_eight h8, List.cons_append,
      ih (xs.drop 8) (by rw [List.length_drop]; omega)]

theorem leftover_append (xs ys : List Bool) : leftover (xs ++ ys) = leftover (leftover xs ++ ys) := by
  induction hn : xs.length / 8 generalizing xs with
  | zero => rw [leftover_short (bs := xs) (by omega)]
  | succ n ih =>
    have h8 : (xs.take 8).length = 8 := by rw [List.length_take]; omega
    have hcut : xs = xs.take 8 ++ xs.drop 8 := (List.take_append_drop 8 xs).symm
    rw [hcut, List.append_assoc, leftover_eight h8, leftover_eight h8,
      ih (xs.drop 8) (by rw [List.length_drop]; omega)]

end Sys2Proof.Machine
end

