-- ==== Sys2Proof/Laws/Exec.lean ====
section
/-! SUPPORT. What `exec` answers, one equation per command: the frame of R90 and R91 around the command's rule.
Every command answers a next state. -/

namespace Sys2Proof.Machine

/-- A command's rule under its mode check, in a block that is not faulted (R90, R91). -/
theorem honour_requireMode (allowed : List Mode) (rule : State → State) (s : State) :
    honour (requireMode allowed rule) s =
      .next (if s.fault = .noFault then (if s.mode ∈ allowed then rule s else raise .sequence s) else s) := rfl

theorem exec_nop (s : State) : exec .nop s = .next s := by
  show execNop s = _
  simp [execNop, honour]

theorem exec_srst (s : State) : exec .srst s = .next (resetBlock s) := rfl

theorem exec_tclr (s : State) : exec .tclr s =
    .next (if s.fault = .noFault then
      (if s.mode ∈ [Mode.idle] then { s with table := tabEmpty } else raise .sequence s) else s) := rfl

theorem exec_tset (sym : Symbol) (len : Byte) (cw : Codeword) (s : State) : exec (.tset sym len cw) s =
    .next (if s.fault = .noFault then
      (if s.mode ∈ [Mode.idle] then tsetRule sym len cw s else raise .sequence s) else s) := rfl

theorem exec_putcw (len : Byte) (cw : Codeword) (s : State) : exec (.putcw len cw) s =
    .next (if s.fault = .noFault then
      (if s.mode ∈ [Mode.idle, .pack] then putcwRule len cw s else raise .sequence s) else s) := rfl

theorem exec_putsym (sym : Symbol) (s : State) : exec (.putsym sym) s =
    .next (if s.fault = .noFault then
      (if s.mode ∈ [Mode.idle, .pack] then putsymRule sym s else raise .sequence s) else s) := rfl

theorem exec_pflush (s : State) : exec .pflush s =
    .next (if s.fault = .noFault then
      (if s.mode ∈ [Mode.idle, .pack] then pflushRule s else raise .sequence s) else s) := rfl

theorem exec_ubyte (b : Byte) (s : State) : exec (.ubyte b) s =
    .next (if s.fault = .noFault then
      (if s.mode ∈ [Mode.idle, .decode] then ubyteRule b s else raise .sequence s) else s) := rfl

theorem exec_uend (pad : Byte) (s : State) : exec (.uend pad) s =
    .next (if s.fault = .noFault then
      (if s.mode ∈ [Mode.idle, .decode] then uendRule pad s else raise .sequence s) else s) := rfl

theorem exec_mbit (bit : Bool) (s : State) : exec (.mbit bit) s =
    .next (if s.fault = .noFault then
      (if s.mode ∈ [Mode.idle, .decode] then
        requireNothingHeld (fun s => deliverBit { s with mode := .decode } bit) s else raise .sequence s) else s) := rfl

theorem exec_mend (s : State) : exec .mend s =
    .next (if s.fault = .noFault then
      (if s.mode ∈ [Mode.idle, .decode] then requireNothingHeld endCheck s else raise .sequence s) else s) := rfl

/-- A faulted block refuses every command but SRST (R211). -/
theorem exec_faulted {s : State} (h : s.fault ≠ .noFault) {i : Instr} (hi : i ≠ .srst) : exec i s = .next s := by
  cases i with
  | nop => exact exec_nop s
  | srst => exact absurd rfl hi
  | tclr => rw [exec_tclr, if_neg h]
  | tset sym len cw => rw [exec_tset, if_neg h]
  | putcw len cw => rw [exec_putcw, if_neg h]
  | putsym sym => rw [exec_putsym, if_neg h]
  | pflush => rw [exec_pflush, if_neg h]
  | ubyte b => rw [exec_ubyte, if_neg h]
  | uend pad => rw [exec_uend, if_neg h]
  | mbit bit => rw [exec_mbit, if_neg h]
  | mend => rw [exec_mend, if_neg h]

/-- The length check, as a proposition (R76). -/
theorem lengthOk_iff {c : Config} {len : Byte} :
    lengthOk c len = true ↔ 1 ≤ len.toNat ∧ len.toNat ≤ c.lmax := by simp [lengthOk]

/-- The rule of TSET, its three outcomes (R96). -/
theorem tsetRule_cases (sym : Symbol) (len : Byte) (cw : Codeword) (s : State) :
    (lengthOk s.cfg len = false ∧ tsetRule sym len cw s = raise .badLength s) ∨
    (lengthOk s.cfg len = true ∧ heldByAnother s.table sym (codewordOperand len cw) = true ∧
      tsetRule sym len cw s = raise .duplicateCodeword s) ∨
    (lengthOk s.cfg len = true ∧ heldByAnother s.table sym (codewordOperand len cw) = false ∧
      tsetRule sym len cw s = { s with table := tabWrite s.table sym (codewordOperand len cw) }) := by
  unfold tsetRule
  cases h1 : lengthOk s.cfg len with
  | false => exact .inl ⟨rfl, rfl⟩
  | true =>
    cases h2 : heldByAnother s.table sym (codewordOperand len cw) with
    | true => exact .inr (.inl ⟨rfl, rfl, by simp [h2]⟩)
    | false => exact .inr (.inr ⟨rfl, rfl, by simp [h2]⟩)

/-- The rule of PUTCW, its two outcomes (R112). -/
theorem putcwRule_cases (len : Byte) (cw : Codeword) (s : State) :
    (lengthOk s.cfg len = false ∧ putcwRule len cw s = raise .badLength s) ∨
    (lengthOk s.cfg len = true ∧ putcwRule len cw s = appendCodeword (bits len.toNat cw) s) := by
  unfold putcwRule
  cases h1 : lengthOk s.cfg len with
  | false => exact .inl ⟨rfl, rfl⟩
  | true => exact .inr ⟨rfl, rfl⟩

/-- The rule of PUTSYM, its two outcomes (R114). -/
theorem putsymRule_cases (sym : Symbol) (s : State) :
    (tabRead s.table sym = none ∧ putsymRule sym s = raise .unknownSymbol s) ∨
    (∃ e, tabRead s.table sym = some e ∧ putsymRule sym s = appendCodeword e.bits s) := by
  unfold putsymRule
  cases h : tabRead s.table sym with
  | none => exact .inl ⟨rfl, rfl⟩
  | some e => exact .inr ⟨e, rfl, rfl⟩

/-- Appending a codeword, said on the waiting bits (R110, R112). -/
theorem appendCodeword_waiting (bs : List Bool) (s : State) :
    (appendCodeword bs s).bout = s.bout ++ fullBytes (waiting s ++ bs) ∧
      waiting (appendCodeword bs s) = leftover (waiting s ++ bs) ∧
      appendCodeword bs s = { s with
        mode := .pack, acc := (appendCodeword bs s).acc, cnt := (appendCodeword bs s).cnt,
        bout := (appendCodeword bs s).bout } := by
  obtain ⟨h1, h2⟩ := packBits_waiting { s with mode := .pack } bs
  exact ⟨h1, h2, packBits_frame bs { s with mode := .pack }⟩

/-- The rule of UEND, its four outcomes (R134, R151). -/
theorem uendRule_cases (pad : Byte) (s : State) :
    ((7 < pad.toNat ∨ (s.holdV = false ∧ pad ≠ 0)) ∧ uendRule pad s = raise .badPadding s) ∨
    (pad.toNat ≤ 7 ∧ (s.holdV = true ∨ pad = 0) ∧ uendRule pad s = endCheck (releaseFinal pad s)) := by
  unfold uendRule
  by_cases h1 : 7 < pad.toNat
  · rw [if_pos h1]; exact .inl ⟨.inl h1, rfl⟩
  · rw [if_neg h1]
    by_cases h2 : s.holdV = false ∧ pad ≠ 0
    · rw [if_pos h2]; exact .inl ⟨.inr h2, rfl⟩
    · rw [if_neg h2]
      refine .inr ⟨by omega, ?_, rfl⟩
      rcases Bool.eq_false_or_eq_true s.holdV with h | h
      · exact .inl h
      · exact .inr (by_contra fun hp => h2 ⟨h, hp⟩)

/-- The terminal check, its two outcomes (R151). -/
theorem endCheck_cases (s : State) :
    (s.mlen = 0 ∧ endCheck s = { s with mode := .idle }) ∨
    (s.mlen ≠ 0 ∧ endCheck s = raise .unknownCodeword s) := by
  unfold endCheck
  by_cases h : s.mlen = 0
  · rw [if_pos h]; exact .inl ⟨h, rfl⟩
  · rw [if_neg h]; exact .inr ⟨h, rfl⟩

/-- The final release, its two forms (R134). -/
theorem releaseFinal_held {s : State} (h : s.holdV = true) (pad : Byte) :
    releaseFinal pad s =
      { deliverBits (bits (8 - pad.toNat) s.hold) s with hold := 0, holdV := false } := by
  simp [releaseFinal, h, release]

theorem releaseFinal_none {s : State} (h : s.holdV = false) (pad : Byte) : releaseFinal pad s = s := by
  simp [releaseFinal, h]

/-- The rule of UBYTE, its two forms (R132). -/
theorem ubyteRule_held {s : State} (h : s.holdV = true) (b : Byte) :
    ubyteRule b s = { deliverBits (bits 8 s.hold) s with mode := .decode, hold := b, holdV := true } := by
  simp only [ubyteRule]
  rw [if_pos h, release, deliverBits_withMode]

theorem ubyteRule_none {s : State} (h : s.holdV = false) (b : Byte) :
    ubyteRule b s = { s with mode := .decode, hold := b, holdV := true } := by
  simp [ubyteRule, h]

/-! ### What the rules leave alone -/

/-- Every command answers a next state. -/
theorem exec_next (i : Instr) (s : State) : ∃ t, exec i s = .next t := by cases i <;> exact ⟨_, rfl⟩

/-- The terminal check writes nothing but MODE and FAULT (R151). -/
theorem endCheck_frame (s : State) : ∃ m f, endCheck s = { s with mode := m, fault := f } := by
  rcases endCheck_cases s with ⟨_, h⟩ | ⟨_, h⟩
  · exact ⟨_, s.fault, h⟩
  · exact ⟨s.mode, _, h⟩

/-- PFLUSH appends one or two items, and closes the stream (R116). -/
theorem pflushRule_frame (s : State) : ∃ items : List BoutItem,
    pflushRule s = { s with acc := 0, cnt := 0, mode := .idle, bout := s.bout ++ items } ∧ items.length ≤ 2 := by
  unfold pflushRule
  by_cases h : s.cnt = 0
  · exact ⟨[{ data := padding s.cnt, last := true }], by rw [if_pos h]; rfl, by simp⟩
  · exact ⟨[{ data := s.acc, last := false }, { data := padding s.cnt, last := true }],
      by rw [if_neg h]; simp [emitBout], by simp⟩

/-- Appending a bit sequence emits one item per whole group of 8 (R111). -/
theorem appendCodeword_frame (bs : List Bool) (s : State) : ∃ items : List BoutItem,
    appendCodeword bs s = { s with
      mode := .pack, acc := (appendCodeword bs s).acc, cnt := (appendCodeword bs s).cnt,
      bout := s.bout ++ items } ∧ items.length = (s.cnt.toNat + bs.length) / 8 := by
  obtain ⟨h1, _, h3⟩ := appendCodeword_waiting bs s
  refine ⟨fullBytes (waiting s ++ bs), ?_, ?_⟩
  · conv_lhs => rw [h3]
    rw [h1]
  · rw [fullBytes_eq_map]; simp [waiting]

/-! ### Operands -/

/-- The length check fails for 0 and above LMAX (R76). -/
theorem lengthOk_false {c : Config} {len : Byte} : lengthOk c len = false ↔ len = 0 ∨ c.lmax < len.toNat := by
  rw [← Bool.not_eq_true, lengthOk_iff]
  have : len = 0 ↔ len.toNat = 0 := ⟨fun h => by rw [h]; rfl, fun h => BitVec.eq_of_toNat_eq h⟩
  rw [this]; omega

/-- The codeword operand, its value masked to its length, as a number (R76). -/
theorem codewordOperand_eq (len : Byte) (cw : Codeword) :
    codewordOperand len cw = { tlen := len, tcw := BitVec.ofNat 255 (cw.toNat % 2 ^ len.toNat) } := by
  simp only [codewordOperand, maskedCodeword]
  congr 1
  apply BitVec.eq_of_toNat_eq
  have := len.isLt
  rw [and_mask_toNat (by omega), BitVec.toNat_ofNat]
  exact (Nat.mod_eq_of_lt (lt_of_le_of_lt (Nat.mod_le _ _) cw.isLt)).symm

/-! ### Runs -/

/-- A run of commands in two parts. -/
theorem execAll_append {xs : List Instr} {s t : State} (h : execAll xs s = .next t) (ys : List Instr) :
    execAll (xs ++ ys) s = execAll ys t := by
  induction xs generalizing s with
  | nil => cases h; rfl
  | cons i xs ih =>
    rw [execAll] at h
    rw [List.cons_append, execAll]
    cases hi : exec i s with
    | next u => rw [hi] at h; exact ih h
    | fault r => rw [hi] at h; cases h
    | refused r => rw [hi] at h; cases h

end Sys2Proof.Machine
end

