-- ==== Sys2Proof/Laws/PerInstr.lean ====
section
/-! SUPPORT. Statements about every command, one lemma per constructor (LAWS.json, "per_instruction"). -/

/-- The word of a command carries the command's opcode in its OP field (R72, R79). -/
def Sys2Proof.Laws.OpcodeField.Statement (i : Sys2Proof.Instr) : Prop :=
  Sys2Proof.opField (Sys2Proof.encode i) = i.opcode

namespace Sys2Proof.Laws.OpcodeField

theorem nop : Statement .nop := opField_assemble _ _ _ _

theorem srst : Statement .srst := opField_assemble _ _ _ _

theorem tclr : Statement .tclr := opField_assemble _ _ _ _

theorem tset (sym : Symbol) (len : Byte) (cw : Codeword) : Statement (.tset sym len cw) := opField_assemble _ _ _ _

theorem putcw (len : Byte) (cw : Codeword) : Statement (.putcw len cw) := opField_assemble _ _ _ _

theorem putsym (sym : Symbol) : Statement (.putsym sym) := opField_assemble _ _ _ _

theorem pflush : Statement .pflush := opField_assemble _ _ _ _

theorem ubyte (b : Byte) : Statement (.ubyte b) := opField_assemble _ _ _ _

theorem uend (pad : Byte) : Statement (.uend pad) := opField_assemble _ _ _ _

theorem mbit (bit : Bool) : Statement (.mbit bit) := opField_assemble _ _ _ _

theorem mend : Statement .mend := opField_assemble _ _ _ _

end Sys2Proof.Laws.OpcodeField
end

