-- ==== Sys2Proof/Laws/Tree.lean ====
section
/-! SUPPORT. Nodes and labels of the prefix tree, said on table entries (spec/43_match.md R156). -/

namespace Sys2Proof.Machine

theorem labelFrom_some {p : List Bool} {l : List (Option Entry)} {i : Nat} {sym : Symbol}
    (h : labelFrom p l i = some sym) :
    ∃ k : Nat, ∃ hk : k < l.length, (l[k]).map Entry.bits = some p ∧ sym = BitVec.ofNat 8 (i + k) := by
  induction l generalizing i with
  | nil => simp [labelFrom] at h
  | cons x rest ih =>
    rw [labelFrom] at h
    split at h
    · next hx => exact ⟨0, by simp, by simpa using hx, by simpa using h.symm⟩
    · obtain ⟨k, hk, h1, h2⟩ := ih h
      exact ⟨k + 1, by simpa using hk, by simpa using h1, by rw [h2]; congr 1; omega⟩

theorem labelFrom_none {p : List Bool} {l : List (Option Entry)} {i : Nat} :
    labelFrom p l i = none ↔ ∀ e, some e ∈ l → e.bits ≠ p := by
  induction l generalizing i with
  | nil => simp [labelFrom]
  | cons x rest ih =>
    rw [labelFrom]
    split
    · next hx =>
      cases x with
      | none => simp at hx
      | some e => simp at hx; simp [hx]
    · next hx =>
      rw [ih]
      constructor
      · intro h e he
        rcases List.mem_cons.mp he with he | he
        · subst he; simpa using hx
        · exact h e he
      · intro h e he; exact h e (List.mem_cons_of_mem _ he)

/-- The label of a node is a symbol whose codeword the node is. -/
theorem labelOf_some {t : Table} {p : List Bool} {sym : Symbol} (h : labelOf t p = some sym) :
    ∃ e, tabRead t sym = some e ∧ e.bits = p := by
  obtain ⟨k, hk, h1, h2⟩ := labelFrom_some h
  have hk' : k < 256 := by simpa using hk
  subst h2
  cases hx : t[k] with
  | none => simp [hx] at h1
  | some e => exact ⟨e, by simpa [tabRead, Nat.mod_eq_of_lt hk'] using hx, by simpa [hx] using h1⟩

/-- A node without a label is no symbol's codeword. -/
theorem labelOf_none {t : Table} {p : List Bool} :
    labelOf t p = none ↔ ∀ sym e, tabRead t sym = some e → e.bits ≠ p := by
  rw [labelOf, labelFrom_none]
  constructor
  · intro h sym e he; exact h e (mem_table_iff.mpr ⟨sym, he⟩)
  · intro h e he
    obtain ⟨sym, hs⟩ := mem_table_iff.mp he
    exact h sym e hs

/-- A bit string is a node exactly when some codeword begins with it. -/
theorem isNode_iff {t : Table} {p : List Bool} :
    isNode t p = true ↔ ∃ sym e, tabRead t sym = some e ∧ p <+: e.bits := by
  simp only [isNode, codewords, List.any_eq_true, List.mem_filterMap]
  constructor
  · rintro ⟨w, ⟨x, hx, hw⟩, hp⟩
    cases x with
    | none => simp at hw
    | some e =>
      obtain ⟨sym, hs⟩ := mem_table_iff.mp hx
      simp at hw
      subst hw
      exact ⟨sym, e, hs, by simpa using hp⟩
  · rintro ⟨sym, e, he, hp⟩
    exact ⟨e.bits, ⟨some e, mem_table_iff.mpr ⟨sym, he⟩, rfl⟩, by simpa using hp⟩

end Sys2Proof.Machine
end

