-- ==== Sys2Proof/Tests/Slice0.lean ====
section
/-! SUPPORT. Tests, each a named theorem. Expected results come from spec/ (the rule or vector each names), never
from the model. The last part shows, for every statement of Obligations.lean that has hypotheses, states and
operands that meet them. -/

namespace Sys2Proof.Tests

open Sys2Proof.Machine

/-! ### Small states -/

/-- What a test looks at in an outcome. -/
def seen {α : Type} (look : State → α) : Host.Outcome State Fault Refusal → Option α
  | .next t => some (look t)
  | .fault _ => none
  | .refused _ => none

/-- A block with a smaller LMAX, `n + 1`. -/
def small (n : Fin 255) : Config := { lmaxLess1 := n }

/-- Table {a:"1", b:"01", c:"00"}, the spec's running example (R81, R132). -/
def demoTable : Table :=
  tabWrite (tabWrite (tabWrite tabEmpty 0x61 { tlen := 1, tcw := 1 }) 0x62 { tlen := 2, tcw := 2 })
    0x63 { tlen := 2, tcw := 0 }

/-- Idle, with the example table. -/
def loaded : State := { State.reset with table := demoTable }

/-- In a pack stream, six bits waiting (R111's example). -/
def packing : State := { loaded with mode := .pack, acc := 0x15, cnt := 6 }

/-- In a decode stream: a held byte and one `0` bit in the matcher (R134's example). -/
def holding : State := { loaded with mode := .decode, hold := 0x00, holdV := true, mlen := 1 }

/-- In a bit-fed stream: one `0` bit in the matcher. -/
def buffering : State := { loaded with mode := .decode, mlen := 1 }

/-- LMAX = 4, the matcher full and unmatched (V27). -/
def full : State := { State.reset with cfg := small 3, mode := .decode, mlen := 4, movf := true }

/-- LMAX = 4, one bit short of full. -/
def almostFull : State := { State.reset with cfg := small 3, mode := .decode, mlen := 3 }

/-- Faulted in a decode stream (R93's example). -/
def faulted : State := { buffering with fault := .unknownCodeword }

/-! ### WellFormed -/

theorem smoke_tset_cw_too_wide : (Instr.tset 0x61 5 0x10).wf (small 3) = false := by decide
theorem smoke_putcw_cw_too_wide : (Instr.putcw 5 0x10).wf (small 3) = false := by decide
theorem smoke_tset_cw_fits : (Instr.tset 0x61 0xFF 0x0F).wf (small 3) = true := by decide
theorem smoke_putcw_cw_fits : (Instr.putcw 0 0x0F).wf (small 3) = true := by decide
theorem smoke_word_too_wide : CmdWord.fits (small 3) 0x10000000 = false := by decide
theorem smoke_word_fits : CmdWord.fits (small 3) 0xFFFFFFF = true := by decide

/-! ### Decoding: words written out from R70, R71 and R72 (those of R81, and others) -/

theorem test_decode_nop : decodeTableWord 8 0x00 = some .nop := by decide
theorem test_decode_srst : decodeTableWord 8 0x01 = some .srst := by decide
theorem test_decode_tclr : decodeTableWord 8 0x10 = some .tclr := by decide
/-- `TSET 'c', "110"`. -/
theorem test_decode_tset : decodeTableWord 279 0x3630311 = some (.tset 0x63 3 3) := by decide
/-- `PUTCW "011"`. -/
theorem test_decode_putcw : decodeTableWord 279 0x6000320 = some (.putcw 3 6) := by decide
theorem test_decode_putsym : decodeTableWord 279 0x610021 = some (.putsym 0x61) := by decide
theorem test_decode_pflush : decodeTableWord 8 0x22 = some .pflush := by decide
theorem test_decode_ubyte : decodeTableWord 24 0x570030 = some (.ubyte 0x57) := by decide
theorem test_decode_uend : decodeTableWord 24 0x70031 = some (.uend 7) := by decide
theorem test_decode_mbit : decodeTableWord 24 0x10032 = some (.mbit true) := by decide
theorem test_decode_mend : decodeTableWord 8 0x33 = some .mend := by decide

/-- The fields next to an operand are not read into it: every field of the word set to a different value. -/
theorem test_decode_tset_fields : decode Config.default 0xAB_C3_5A_11#279 = .command (.tset 0xC3 0x5A 0xAB) := by
  decide
/-- The top codeword bit of the widest word is `CW[254]`, word bit 278. -/
theorem test_decode_putcw_top_bit :
    decode Config.default (BitVec.ofNat 279 (2 ^ 278 + 0xFF20)) = .command (.putcw 0xFF (BitVec.ofNat 255 (2 ^ 254))) := by
  decide
/-- MBIT reads `A[0]` only; UEND reads all of `A`. -/
theorem test_decode_mbit_ignores_a71 : decode Config.default 0xFE0032#279 = .command (.mbit false) := by decide
theorem test_decode_uend_whole_a : decode Config.default 0x0F0031#279 = .command (.uend 0x0F) := by decide
/-- Reserved opcodes at the ends of the ranges of R73. -/
theorem test_decode_reserved : ∀ op ∈ [0x02, 0x0F, 0x12, 0x1F, 0x23, 0x2F, 0x34, 0xFF],
    decodeTableWord 8 op = none := by decide

/-- The encoder, on the words of R81. -/
theorem test_encode_tset : encode (tsetString 0x63 [true, true, false]) = 0x3630311#279 := by decide
theorem test_encode_putcw : encode (putcwString [false, true, true]) = 0x6000320#279 := by decide

/-- Status codes of R30 and R31. -/
theorem test_status : faulted.status = (7, 2) := by decide

/-! ### One command at a time -/

/-- R92, V30s: NOP leaves an open stream as it is. -/
theorem test_nop : exec .nop packing = .next packing := by rfl

/-- R93, example: from `FAULT = 7`, `MODE = DECODE`, `mlen = 1`. -/
theorem test_srst : seen (fun t => (t.fault, t.mode, t.mlen, t.tv 0x61)) (exec .srst faulted) =
    some (.noFault, .idle, 0, false) := by decide

/-- R94, example. -/
theorem test_tclr : seen (fun t => (t.fault, t.tv 0x61, t.tv 0x62, t.tv 0x63)) (exec .tclr loaded) =
    some (.noFault, false, false, false) := by decide
/-- R94: outside IDLE (V11d). -/
theorem test_tclr_sequence : seen (fun t => (t.fault, t.tv 0x61)) (exec .tclr packing) =
    some (.sequence, true) := by decide

/-- R96 (e): `CW` bits at and above the length are dropped (V11b). -/
theorem test_tset_masks : seen (fun t => (t.fault, tabRead t.table 0x61)) (exec (.tset 0x61 1 3) State.reset) =
    some (.noFault, some { tlen := 1, tcw := 1 }) := by decide +kernel
/-- R96 (c): another symbol's codeword (V11). -/
theorem test_tset_duplicate : seen (fun t => (t.fault, t.tv 0x64)) (exec (.tset 0x64 2 2) loaded) =
    some (.duplicateCodeword, false) := by decide +kernel

/-- R112, example. -/
theorem test_putcw : seen (fun t => (t.acc, t.cnt, t.mode, t.bout)) (exec (.putcw 3 6) State.reset) =
    some (0x06, 3, .pack, []) := by decide
/-- R111, example: the byte that fills leaves. -/
theorem test_putcw_fills : seen (fun t => (t.acc, t.cnt, t.bout)) (exec (.putcw 3 6) packing) =
    some (0x01, 1, [{ data := 0x95, last := false }]) := by decide

/-- R114, example. -/
theorem test_putsym : seen (fun t => (t.acc, t.cnt, t.mode)) (exec (.putsym 0x61) loaded) =
    some (0x01, 1, .pack) := by decide
/-- R114 (c): a symbol with no entry. -/
theorem test_putsym_unknown : seen (fun t => (t.fault, t.mode)) (exec (.putsym 0x64) loaded) =
    some (.unknownSymbol, .idle) := by decide

/-- R116, example: `acc = 0`, `cnt = 1`. -/
theorem test_pflush : seen (fun t => (t.mode, t.cnt, t.bout)) (exec .pflush { loaded with mode := .pack, cnt := 1 }) =
    some (.idle, 0, [{ data := 0x00, last := false }, { data := 0x07, last := true }]) := by decide
/-- R116 (b): the empty stream. -/
theorem test_pflush_empty : seen (fun t => t.bout) (exec .pflush loaded) =
    some [{ data := 0x00, last := true }] := by decide

/-- R132, example: the first byte is only held. -/
theorem test_ubyte_first : seen (fun t => (t.hold, t.holdV, t.mode, t.sout)) (exec (.ubyte 0x57) loaded) =
    some (0x57, true, .decode, []) := by decide
/-- R132, example: the next byte releases it. -/
theorem test_ubyte_next :
    seen (fun t => (t.hold, t.mbuf, t.mlen, t.sout))
      (exec (.ubyte 0x00) { loaded with mode := .decode, hold := 0x57, holdV := true }) =
    some (0x00, 0, 1, [0x61, 0x61, 0x61, 0x62, 0x62]) := by decide +kernel

/-- R134, example: `UEND 7`. -/
theorem test_uend : seen (fun t => (t.mode, t.fault, t.holdV, t.mlen, t.sout)) (exec (.uend 7) holding) =
    some (.idle, .noFault, false, 0, [0x63]) := by decide +kernel
/-- R134, example: `UEND 6` leaves a bit behind. -/
theorem test_uend_truncated : seen (fun t => (t.mode, t.fault, t.holdV, t.mlen, t.sout)) (exec (.uend 6) holding) =
    some (.decode, .unknownCodeword, false, 1, [0x63]) := by decide +kernel

/-- R150, example: `0` then `1` is b's codeword. -/
theorem test_mbit : seen (fun t => (t.mbuf, t.mlen, t.sout)) (exec (.mbit true) buffering) =
    some (0, 0, [0x62]) := by decide +kernel
/-- V27, LMAX = 4: the fourth unmatched bit sets `movf`. -/
theorem test_mbit_fills : seen (fun t => (t.mlen, t.movf, t.sout)) (exec (.mbit false) almostFull) =
    some (4, true, []) := by decide +kernel

/-- R154, example: a bit left in the matcher. -/
theorem test_mend_truncated : seen (fun t => (t.mode, t.fault, t.mlen)) (exec .mend buffering) =
    some (.decode, .unknownCodeword, 1) := by decide
/-- V29: while a byte is held. -/
theorem test_mend_held : seen (fun t => (t.mode, t.fault, t.holdV)) (exec .mend holding) =
    some (.decode, .sequence, true) := by decide

/-- V11c, LMAX = 16: a length of 16 is admitted and one of 17 is not. -/
theorem test_lmax_16 : seen (fun t => t.fault) (exec (.tset 0x61 17 0) { State.reset with cfg := small 15 }) =
    some .badLength ∧ lengthOk (small 15) 16 = true := by decide
/-- R208, example: `TSET` with `LEN = 0` in PACK records Sequence. -/
theorem test_priority : seen (fun t => t.fault) (exec (.tset 0x61 0 0) packing) = some .sequence := by decide
/-- R211, V32: while faulted even an illegal word changes nothing. -/
theorem test_refused : executeWord 0xFF#279 faulted = .next faulted := by rfl
/-- R73: an illegal word, presented after reset. -/
theorem test_illegal : seen (fun t => (t.fault, t.mode)) (step (State.reset.withFetchWord 8 0x02)) =
    some (.illegalCommand, .idle) := by decide
/-- R225: with nothing presented the block holds its state. -/
theorem test_idle_step : step packing = .next packing := by rfl

/-! ### The states above meet the invariants -/

theorem demo_cases {sym : Symbol} {e : Entry} (h : tabRead demoTable sym = some e) :
    (sym = 0x61 ∧ e = { tlen := 1, tcw := 1 }) ∨ (sym = 0x62 ∧ e = { tlen := 2, tcw := 2 }) ∨
      (sym = 0x63 ∧ e = { tlen := 2, tcw := 0 }) := by
  simp only [demoTable, tabRead_tabWrite, tabRead_tabEmpty] at h
  split at h
  · exact .inr (.inr ⟨‹_›, by simpa using h.symm⟩)
  · split at h
    · exact .inr (.inl ⟨‹_›, by simpa using h.symm⟩)
    · split at h
      · exact .inl ⟨‹_›, by simpa using h.symm⟩
      · cases h

theorem demo_inRange (c : Config) (h : 2 ≤ c.lmax) : EntriesInRange c demoTable := by
  intro sym e he
  rcases demo_cases he with ⟨-, rfl⟩ | ⟨-, rfl⟩ | ⟨-, rfl⟩ <;> simp <;> omega

theorem demo_distinct : CodewordsDistinct demoTable := by
  intro sym sym' e h h'
  rcases demo_cases h with ⟨rfl, rfl⟩ | ⟨rfl, rfl⟩ | ⟨rfl, rfl⟩ <;>
    rcases demo_cases h' with ⟨rfl, h2⟩ | ⟨rfl, h2⟩ | ⟨rfl, h2⟩ <;> revert h2 <;> decide

theorem demo_prefixFree : PrefixFree demoTable := by
  intro sym sym' e e' h h' hp
  rcases demo_cases h with ⟨rfl, rfl⟩ | ⟨rfl, rfl⟩ | ⟨rfl, rfl⟩ <;>
    rcases demo_cases h' with ⟨rfl, rfl⟩ | ⟨rfl, rfl⟩ | ⟨rfl, rfl⟩ <;> revert hp <;> decide

/-- The one `0` bit in the matcher is no codeword of the example table. -/
theorem demo_unmatched (sym : Symbol) : tabRead demoTable sym ≠ some { tlen := 1, tcw := 0 } := by
  intro h
  rcases demo_cases h with ⟨-, h⟩ | ⟨-, h⟩ | ⟨-, h⟩ <;> revert h <;> decide

theorem loaded_inv : Inv loaded :=
  ⟨by decide, by decide, by decide, by decide, by decide, by decide, by decide,
    demo_inRange _ (by decide), demo_distinct, by decide, by decide⟩

theorem packing_inv : Inv packing :=
  ⟨by decide, by decide, by decide, by decide, by decide, by decide, by decide,
    demo_inRange _ (by decide), demo_distinct, by decide, by decide⟩

theorem holding_inv : Inv holding :=
  ⟨by decide, by decide, by decide, by decide, by decide, by decide, by decide,
    demo_inRange _ (by decide), demo_distinct, fun _ sym => demo_unmatched sym, by decide⟩

theorem buffering_inv : Inv buffering :=
  ⟨by decide, by decide, by decide, by decide, by decide, by decide, by decide,
    demo_inRange _ (by decide), demo_distinct, fun _ sym => demo_unmatched sym, by decide⟩

theorem empty_unmatched {e : Entry} {p : Prop} : p → ∀ sym : Symbol, tabRead tabEmpty sym ≠ some e := by
  intro _ sym h
  simp at h

theorem almostFull_inv : Inv almostFull :=
  ⟨by decide, by decide, by decide, by decide, by decide, by decide, by decide,
    entriesInRange_tabEmpty _, codewordsDistinct_tabEmpty, empty_unmatched,
    by decide⟩

theorem full_inv : Inv full :=
  ⟨by decide, by decide, by decide, by decide, by decide, by decide, by decide,
    entriesInRange_tabEmpty _, codewordsDistinct_tabEmpty, empty_unmatched,
    by decide⟩

/-! ### Witnesses: for each statement with hypotheses, what meets them, at the ends of the ranges -/

/-- DecodeEncodeRoundTrip: the widest codeword of the smallest and of the widest block. -/
theorem witness_DecodeEncodeRoundTrip :
    (Instr.putcw 1 1).wf (small 0) = true ∧ (Instr.tset 0xFF 0xFF (mask 255)).wf Config.default = true := by
  decide

/-- OpcodeAloneSelectsCommand: the last of the eleven opcodes, and the value after it. -/
theorem witness_OpcodeAloneSelectsCommand :
    opField 0x33#279 ∈ opcodes ∧ opField 0x34#279 ∉ opcodes := by decide

/-- IgnoredFieldsHaveNoEffect: two TSET words that differ in `CW[2]` and above with LEN = 2; two MBIT words that
differ in `A[7:1]`; and a TSET that stores. -/
theorem witness_IgnoredFieldsHaveNoEffect_tset :
    opField 0x0E620211#279 = opField 0x02620211#279 ∧ lenField 0x0E620211#279 = lenField 0x02620211#279 ∧
      aField 0x0E620211#279 = aField 0x02620211#279 ∧
      ∀ j, j < (lenField 0x0E620211#279).toNat →
        (cwField Config.default 0x0E620211#279).getLsbD j = (cwField Config.default 0x02620211#279).getLsbD j := by
  decide +kernel
theorem witness_IgnoredFieldsHaveNoEffect_mbit :
    opField 0xFF0032#279 = 0x32#8 ∧ opField 0xFF0032#279 = opField 0x10032#279 ∧
      (aField 0xFF0032#279).getLsbD 0 = (aField 0x10032#279).getLsbD 0 := by decide
theorem witness_IgnoredFieldsHaveNoEffect_stores :
    loaded.fault = .noFault ∧ ∃ t, exec (.tset 0x64 3 7) loaded = .next t ∧ t.fault = .noFault :=
  ⟨rfl, _, rfl, by decide +kernel⟩

/-- CommandWordIsItsFourFields: a word at the top of the port's range, and a word of each opcode with operands. -/
theorem witness_CommandWordIsItsFourFields :
    CmdWord.fits (small 3) 0xFFFFF11#279 = true ∧
      [0x11, 0x20, 0x21, 0x30, 0x31, 0x32].map (fun op => opField (BitVec.ofNat 279 op)) =
        [0x11#8, 0x20#8, 0x21#8, 0x30#8, 0x31#8, 0x32#8] := by decide

/-- StepRunsTheDecodedCommand and PresentedWordRunsNext. -/
theorem witness_StepRunsTheDecodedCommand :
    (present 0x22#279 packing).pending = .command 0x22#279 :: [] ∧
      decode (present 0x22#279 packing).cfg 0x22#279 = .command .pflush := by decide
theorem witness_PresentedWordRunsNext :
    decode State.reset.cfg (BitVec.ofNat 279 (0x3630311 % 2 ^ 279)) = .command (.tset 0x63 3 3) := by decide

/-- IllegalOpcodeRaisesIllegalCommand: both ends of the reserved values. -/
theorem witness_IllegalOpcodeRaisesIllegalCommand :
    loaded.fault = .noFault ∧ opField 0x02#279 ∉ opcodes ∧ opField 0xFF#279 ∉ opcodes := by decide

/-- HardwareResetGivesResetValues, and the reset clause of ModeChangesOnlyAsTabled. -/
theorem witness_HardwareResetGivesResetValues :
    ({ faulted with pending := [.hardwareReset] } : State).pending = .hardwareReset :: [] := rfl

/-- OutputTracesOnlyGrow: a step that answers a next state and emits. -/
theorem witness_OutputTracesOnlyGrow : ∃ t, step (present 0x22#279 packing) = .next t ∧ t.bout.length = 2 :=
  ⟨_, rfl, by decide⟩

/-- OutputOfOneCommandIsBounded. -/
theorem witness_OutputOfOneCommandIsBounded :
    EntriesInRange packing.cfg packing.table ∧ ∃ t, exec .pflush packing = .next t :=
  ⟨demo_inRange _ (by decide), _, rfl⟩

/-- StepKeepsInvariants: states in every mode, and one with a full matcher, that meet the invariants and step. -/
theorem witness_StepKeepsInvariants :
    (Inv loaded ∧ ∃ t, step loaded = .next t) ∧ (Inv packing ∧ ∃ t, step packing = .next t) ∧
      (Inv holding ∧ ∃ t, step holding = .next t) ∧ (Inv full ∧ ∃ t, step full = .next t) :=
  ⟨⟨loaded_inv, _, rfl⟩, ⟨packing_inv, _, rfl⟩, ⟨holding_inv, _, rfl⟩, ⟨full_inv, _, rfl⟩⟩

/-- FaultedBlockRefusesAllButSrst, and the refusing clauses of CommandsFaultExactlyAsTabled and
SrstRestoresResetState. -/
theorem witness_FaultedBlockRefusesAllButSrst :
    faulted.fault ≠ .noFault ∧ opField 0x00#279 ≠ 0x01#8 ∧ opField 0x02#279 ≠ 0x01#8 ∧ Instr.tclr ≠ .srst := by decide

/-- CommandsFaultExactlyAsTabled: one command for each code, and one that raises nothing. -/
theorem witness_CommandsFaultExactlyAsTabled :
    CodewordsDistinct loaded.table ∧ loaded.fault = .noFault ∧
    seen (fun t => t.fault) (executeWord 0x02#279 loaded) = some .illegalCommand ∧
    seen (fun t => t.fault) (exec .tclr packing) = some .sequence ∧
    seen (fun t => t.fault) (exec (.mbit true) holding) = some .sequence ∧
    seen (fun t => t.fault) (exec (.putcw 0 1) loaded) = some .badLength ∧
    seen (fun t => t.fault) (exec (.tset 0x64 2 2) loaded) = some .duplicateCodeword ∧
    seen (fun t => t.fault) (exec (.putsym 0x64) loaded) = some .unknownSymbol ∧
    seen (fun t => t.fault) (exec (.uend 8) holding) = some .badPadding ∧
    seen (fun t => t.fault) (exec (.uend 1) buffering) = some .badPadding ∧
    seen (fun t => t.fault) (exec .mend buffering) = some .unknownCodeword ∧
    seen (fun t => t.fault) (exec .nop loaded) = some .noFault := by
  refine ⟨demo_distinct, ?_⟩
  decide +kernel

/-- FaultsArePrecise: a word that raises Sequence, and one that raises UnknownCodeword with a byte held. -/
theorem witness_FaultsArePrecise :
    (Inv packing ∧ packing.fault = .noFault ∧ ∃ t, executeWord 0x10#279 packing = .next t ∧ t.fault = .sequence) ∧
    (Inv holding ∧ holding.fault = .noFault ∧
      ∃ t, executeWord 0x60031#279 holding = .next t ∧ t.fault = .unknownCodeword) ∧
    (Inv buffering ∧ buffering.fault = .noFault ∧
      ∃ t, executeWord 0x33#279 buffering = .next t ∧ t.fault = .unknownCodeword) :=
  ⟨⟨packing_inv, rfl, _, rfl, rfl⟩, ⟨holding_inv, rfl, _, rfl, by decide +kernel⟩, ⟨buffering_inv, rfl, _, rfl, rfl⟩⟩

/-- OnlyResetLeavesTheFaultedState: a faulted block with SRST, hardware reset, another word, and nothing next. -/
theorem witness_OnlyResetLeavesTheFaultedState :
    faulted.fault ≠ .noFault ∧ (∃ t, step (present 0x01#279 faulted) = .next t) ∧
      (present 0x01#279 faulted).pending.head? = some (.command 0x01#279) ∧ opField 0x01#279 = 0x01#8 ∧
      (present 0x22#279 faulted).pending.head? = some (.command 0x22#279) ∧ opField 0x22#279 ≠ 0x01#8 ∧
      faulted.pending.head? = none :=
  ⟨by decide, ⟨_, rfl⟩, rfl, by decide, rfl, by decide, rfl⟩

/-- ModeChangesOnlyAsTabled: a command of each row that ends without a fault, in a state that meets the
invariants. -/
theorem witness_ModeChangesOnlyAsTabled :
    Inv loaded ∧ loaded.fault = .noFault ∧ Inv packing ∧ Inv holding ∧
    [exec .nop loaded, exec .tclr loaded, exec (.putcw 1 1) loaded, exec .pflush packing, exec (.ubyte 1) loaded,
      exec (.mbit true) loaded, exec .mend loaded, exec (.uend 7) holding].map (seen fun t => (t.mode, t.fault)) =
      [some (.idle, .noFault), some (.idle, .noFault), some (.pack, .noFault), some (.idle, .noFault),
        some (.decode, .noFault), some (.decode, .noFault), some (.idle, .noFault), some (.idle, .noFault)] := by
  refine ⟨loaded_inv, rfl, packing_inv, holding_inv, ?_⟩
  decide +kernel

/-- OnlyTclrTsetAndSrstCommandsChangeTheTable: TCLR changes a table that is not empty. -/
theorem witness_OnlyTclrTsetAndSrstCommandsChangeTheTable :
    ∃ t, exec .tclr loaded = .next t ∧ tabRead t.table 0x61 ≠ tabRead loaded.table 0x61 := ⟨_, rfl, by decide⟩

/-- RepeatedSystemAndTableCommandsChangeNothing and TableCommandsFrame. -/
theorem witness_TableCommandsFrame :
    isTableCommand .tclr = true ∧ isTableCommand (.tset 0x64 3 7) = true ∧ (0x61 : Symbol) ≠ 0x64 ∧
      (∃ t, exec (.tset 0x64 3 7) loaded = .next t) ∧ ∃ t, exec .tclr loaded = .next t :=
  ⟨rfl, rfl, by decide, ⟨_, rfl⟩, _, rfl⟩

/-- PackCommandsFrame. -/
theorem witness_PackCommandsFrame :
    isPackCommand .pflush = true ∧ isPackCommand (.putsym 0x61) = true ∧ isPackCommand (.putcw 3 6) = true ∧
      (∃ t, exec (.putsym 0x61) packing = .next t) ∧ ∃ t, exec (.putcw 3 6) packing = .next t :=
  ⟨rfl, rfl, rfl, ⟨_, rfl⟩, _, rfl⟩

/-- DecodeCommandsFrame. -/
theorem witness_DecodeCommandsFrame :
    isDecodeCommand (.uend 7) = true ∧ isDecodeCommand (.mbit true) = true ∧ isDecodeCommand .mend = true ∧
      (∃ t, exec (.uend 7) holding = .next t) ∧ (∃ t, exec (.mbit true) buffering = .next t) ∧
      ∃ t, exec .mend loaded = .next t :=
  ⟨rfl, rfl, rfl, ⟨_, rfl⟩, ⟨_, rfl⟩, _, rfl⟩

/-- NopChangesNothing and SrstRestoresResetState: words with their other fields set. -/
theorem witness_NopAndSrstWords : opField 0xFFFFFF00#279 = 0x00#8 ∧ opField 0xFFFFFF01#279 = 0x01#8 := by decide

/-- TclrInvalidatesEveryEntry and PflushEndsStreamWithPadding: both their modes, a partial byte and none. -/
theorem witness_TclrAndPflush :
    loaded.fault = .noFault ∧ loaded.mode = .idle ∧ packing.fault = .noFault ∧ packing.mode ≠ .idle ∧
      packing.mode ≠ .decode ∧ packing.cnt ≠ 0 ∧ loaded.mode ≠ .decode ∧ loaded.cnt = 0 ∧
      buffering.fault = .noFault ∧ buffering.mode = .decode := by decide

/-- LookupNamesTheOneEntry. -/
theorem witness_LookupNamesTheOneEntry : CodewordsDistinct demoTable := demo_distinct

/-- TsetWritesItsEntryOrFaults: each of its clauses, the lengths at the ends of the range. -/
theorem witness_TsetWritesItsEntryOrFaults :
    loaded.fault = .noFault ∧ CodewordsDistinct loaded.table ∧ loaded.mode = .idle ∧
      (packing.fault = .noFault ∧ CodewordsDistinct packing.table ∧ packing.mode ≠ .idle) ∧
      almostFull.cfg.lmax < (5 : Byte).toNat ∧ (4 : Byte).toNat ≤ almostFull.cfg.lmax ∧
      (255 : Byte).toNat ≤ loaded.cfg.lmax ∧
      (∃ other : Symbol, other ≠ 0x64 ∧
        tabRead loaded.table other = some { tlen := 2, tcw := BitVec.ofNat 255 ((2 : Codeword).toNat % 2 ^ (2 : Byte).toNat) }) ∧
      ∀ other, other ≠ (0x64 : Symbol) → tabRead loaded.table other ≠
        some { tlen := 1, tcw := BitVec.ofNat 255 ((0 : Codeword).toNat % 2 ^ (1 : Byte).toNat) } :=
  ⟨rfl, demo_distinct, rfl, ⟨rfl, demo_distinct, by decide⟩, by decide, by decide, by decide,
    ⟨0x62, by decide, by decide⟩, fun other _ => demo_unmatched other⟩

/-- LoadingOrderDoesNotMatter: two orders of two TSETs. -/
theorem witness_LoadingOrderDoesNotMatter :
    let l : List TsetArgs := [{ sym := 0x61, len := 1, cw := 1 }, { sym := 0x62, len := 2, cw := 2 }]
    (∃ t, execAll (l.map TsetArgs.instr) State.reset = .next t ∧ t.fault = .noFault) ∧
      (∃ t, execAll (l.reverse.map TsetArgs.instr) State.reset = .next t ∧ t.fault = .noFault) ∧
      ∀ sym, lastGiven sym l = lastGiven sym l.reverse := by
  refine ⟨⟨_, rfl, by decide +kernel⟩, ⟨_, rfl, by decide +kernel⟩, fun sym => ?_⟩
  by_cases h1 : (0x61 : Symbol) = sym
  · subst h1; decide
  · by_cases h2 : (0x62 : Symbol) = sym
    · subst h2; decide
    · simp only [lastGiven, List.reverse_cons, List.reverse_nil, List.nil_append, List.cons_append, if_neg h1,
        if_neg h2]

/-- PutbitPacksOneBit: a bit that fills the byte and one that does not. -/
theorem witness_PutbitPacksOneBit :
    packing.fault = .noFault ∧ packing.mode ≠ .decode ∧ packing.cnt.toNat < 7 ∧
      ({ packing with cnt := 7 } : State).cnt.toNat = 7 := by decide

/-- PutcwAppendsCodeword: lengths 1, LMAX, 0 and LMAX + 1, and DECODE. -/
theorem witness_PutcwAppendsCodeword :
    packing.fault = .noFault ∧ packing.acc.toNat < 2 ^ packing.cnt.toNat ∧ packing.mode ≠ .decode ∧
      1 ≤ (1 : Byte).toNat ∧ (255 : Byte).toNat ≤ packing.cfg.lmax ∧ (0 : Byte).toNat = 0 ∧
      ({ packing with cfg := small 3 } : State).cfg.lmax < (5 : Byte).toNat ∧
      (buffering.fault = .noFault ∧ buffering.acc.toNat < 2 ^ buffering.cnt.toNat ∧ buffering.mode = .decode) := by
  decide

/-- PutsymAppendsTableCodeword: a symbol with an entry, one without, and DECODE. -/
theorem witness_PutsymAppendsTableCodeword :
    EntriesInRange packing.cfg packing.table ∧ packing.fault = .noFault ∧
      packing.acc.toNat < 2 ^ packing.cnt.toNat ∧ packing.mode ≠ .decode ∧
      tabRead packing.table 0x61 = some { tlen := 1, tcw := 1 } ∧ tabRead packing.table 0x64 = none ∧
      (EntriesInRange buffering.cfg buffering.table ∧ buffering.fault = .noFault ∧ buffering.mode = .decode) := by
  refine ⟨demo_inRange _ (by decide), ?_⟩
  refine ⟨by decide, by decide, by decide, by decide, by decide, demo_inRange _ (by decide), by decide, by decide⟩

/-- CntIsTheBitCountModEight and PackStreamEmitsItsBits: a stream of three commands from IDLE, and the empty
one. -/
theorem witness_PackStreamEmitsItsBits :
    Inv loaded ∧ loaded.mode = .idle ∧ loaded.fault = .noFault ∧
      (∀ i ∈ [Instr.putsym 0x61, .nop, .putcw 255 0], PacksWithoutFault loaded.cfg loaded.table i) ∧
      ∀ i ∈ ([] : List Instr), PacksWithoutFault loaded.cfg loaded.table i := by
  refine ⟨loaded_inv, rfl, rfl, ?_, by simp⟩
  intro i hi
  rcases List.mem_cons.mp hi with rfl | hi
  · show tabRead loaded.table 0x61 ≠ none
    decide
  · rcases List.mem_cons.mp hi with rfl | hi
    · exact trivial
    · rcases List.mem_cons.mp hi with rfl | hi
      · show 1 ≤ (255 : Byte).toNat ∧ (255 : Byte).toNat ≤ loaded.cfg.lmax
        decide
      · cases hi

/-- UbyteReleasesHeldByte, UendReleasesAllButPadding and FillerBitsAreNotExamined: a byte held or none, PACK, the
padding counts 0, 7 and 8, an empty matcher and one that is not. -/
theorem witness_UnpackCommands :
    (holding.fault = .noFault ∧ holding.mode ≠ .pack ∧ holding.holdV = true) ∧
      (buffering.fault = .noFault ∧ buffering.mode ≠ .pack ∧ buffering.holdV = false ∧ buffering.mlen ≠ 0) ∧
      (loaded.fault = .noFault ∧ loaded.mode ≠ .pack ∧ loaded.holdV = false ∧ loaded.mlen = 0) ∧
      (packing.fault = .noFault ∧ packing.mode = .pack) ∧
      ((7 : Byte).toNat ≤ 7 ∧ 7 < (8 : Byte).toNat ∧ (1 : Byte) ≠ 0) ∧
      (deliverBits ((List.range (8 - (7 : Byte).toNat)).map holding.hold.getLsbD) holding).mlen = 0 ∧
      (deliverBits ((List.range (8 - (6 : Byte).toNat)).map holding.hold.getLsbD) holding).mlen ≠ 0 ∧
      ∀ j, j < 8 - (7 : Byte).toNat → (0x00 : Byte).getLsbD j = (0xFE : Byte).getLsbD j := by
  decide +kernel

/-- DecodeStreamDeliversBody: a body with padding 7, and the empty body with padding 0. -/
theorem witness_DecodeStreamDeliversBody :
    Inv loaded ∧ loaded.mode = .idle ∧ loaded.fault = .noFault ∧ (7 : Byte).toNat ≤ 7 ∧
      ([0x57, 0x00] : List Byte) ≠ [] ∧ (0 : Byte) = 0 := ⟨loaded_inv, by decide⟩

/-- DeliverBitMatchesWholeCodewords: a full matcher; a bit that completes a codeword; one that completes none, and
fills the buffer. -/
theorem witness_DeliverBitMatchesWholeCodewords :
    (Inv full ∧ full.movf = true) ∧
      (Inv buffering ∧ buffering.movf = false ∧ ∃ e, tabRead buffering.table 0x62 = some e ∧
        e.bits = bits buffering.mlen.toNat buffering.mbuf ++ [true]) ∧
      (Inv almostFull ∧ almostFull.movf = false ∧ almostFull.mlen.toNat + 1 = almostFull.cfg.lmax ∧
        ∀ sym e, tabRead almostFull.table sym = some e →
          e.bits ≠ bits almostFull.mlen.toNat almostFull.mbuf ++ [false]) := by
  refine ⟨⟨full_inv, rfl⟩, ⟨buffering_inv, rfl, { tlen := 2, tcw := 2 }, by decide, by decide⟩,
    almostFull_inv, rfl, by decide, ?_⟩
  intro sym e h
  cases (tabRead_tabEmpty sym).symm.trans h

/-- MbitDeliversOneBit, MendEndsBitFedStream and EightMbitsEqualOneByte: their modes, a byte held or none, an empty
matcher and one that is not. -/
theorem witness_MatchCommands :
    (packing.fault = .noFault ∧ packing.mode = .pack) ∧ (holding.fault = .noFault ∧ holding.holdV = true) ∧
      (buffering.fault = .noFault ∧ buffering.mode ≠ .pack ∧ buffering.holdV = false ∧ buffering.hold = 0 ∧
        buffering.mlen ≠ 0) ∧
      (loaded.fault = .noFault ∧ loaded.mode ≠ .pack ∧ loaded.holdV = false ∧ loaded.mlen = 0) := by decide

/-- MatcherIsPrefixTreeWalk and GreedyDecodeIsTheUniqueParse: the example table, and a parse with a remainder. -/
theorem witness_GreedyDecodeIsTheUniqueParse :
    Inv loaded ∧ loaded.mlen = 0 ∧ PrefixFree loaded.table ∧
      IsParse loaded.table [true, false, true, false] [0x61, 0x62] [false] := by
  refine ⟨loaded_inv, rfl, demo_prefixFree, by decide, ?_, ?_⟩
  · intro sym hs
    rcases List.mem_cons.mp hs with rfl | hs
    · decide
    · rcases List.mem_cons.mp hs with rfl | hs
      · decide
      · cases hs
  · intro sym e h
    rcases demo_cases h with ⟨-, rfl⟩ | ⟨-, rfl⟩ | ⟨-, rfl⟩ <;> decide

/-- RoundTripThroughBlock: "aab" with the example table. -/
theorem witness_RoundTripThroughBlock :
    Inv loaded ∧ loaded.mode = .idle ∧ loaded.fault = .noFault ∧ PrefixFree loaded.table ∧
      ∀ sym ∈ [(0x61 : Symbol), 0x61, 0x62], tabRead loaded.table sym ≠ none :=
  ⟨loaded_inv, rfl, rfl, demo_prefixFree, by decide⟩

end Sys2Proof.Tests
end

section
/-! PROOF. Reset and illegal words, said once on `step`, `decode` and `executeWord` (spec/10_state.md R37;
spec/30_encoding.md R72, R73). -/

namespace Sys2Proof

/-- Every command's opcode is one of the eleven (R72). -/
theorem opcode_mem_opcodes (i : Instr) : i.opcode ∈ opcodes := by
  cases i <;> simp [Instr.opcode, opcodes]

/-- An illegal word is answered with the word's own opcode (R73). -/
theorem eq_opField_of_decode_illegal {c : Config} {w : CmdWord} {op : Byte} (h : decode c w = .illegal op) :
    op = opField w := by
  unfold decode at h
  split at h <;> cases h
  rfl

/-- A word whose opcode is none of the eleven is illegal (R73). -/
theorem decode_of_not_mem_opcodes {w : CmdWord} (hw : opField w ∉ opcodes) (c : Config) :
    decode c w = .illegal (opField w) := by
  cases h : decode c w with
  | command i => exact absurd (opcode_of_decode h ▸ opcode_mem_opcodes i) hw
  | illegal op => rw [eq_opField_of_decode_illegal h]

end Sys2Proof

namespace Sys2Proof.Machine

/-- An illegal word runs in the frame of a command that raises IllegalCommand (R73, R90). -/
theorem executeWord_of_not_mem_opcodes {w : CmdWord} (hw : opField w ∉ opcodes) (s : State) :
    executeWord w s = .next (if s.fault = .noFault then raise .illegalCommand s else s) := by
  rw [executeWord, decode_of_not_mem_opcodes hw]
  rfl

/-- A step whose next event is hardware reset takes the event off and resets the block (R230). -/
theorem step_hardwareReset {s : State} {rest : List HostEvent} (h : s.pending = .hardwareReset :: rest) :
    step s = .next (resetBlock { s with pending := rest }) := by
  rw [step, takeEvent, h]

/-- After reset no symbol has a valid entry (R37). -/
@[simp] theorem resetBlock_tv (s : State) (sym : Symbol) : (resetBlock s).tv sym = false := by
  rw [tv_eq, resetBlock_table, tabRead_tabEmpty]
  rfl

/-- Settles O10: both sides are `resetBlock` of the state with the event taken off. -/
theorem hardwareResetGivesResetValues : Obligations.HardwareResetGivesResetValues := by
  intro s rest h
  rw [step_hardwareReset h, exec_srst]
  exact ⟨rfl, _, rfl, by simp⟩

end Sys2Proof.Machine
end

section
/-! PROOF. The transitions of MODE (spec/10_state.md R31): the modes that admit a command, the mode it ends in,
and the outcomes a command has for MODE and FAULT. -/

namespace Sys2Proof.Machine

/-- The modes that admit a command (R91). -/
def admittedModes : Instr → List Mode
  | .nop | .srst => [.idle, .pack, .decode]
  | .tclr | .tset _ _ _ => [.idle]
  | .putcw _ _ | .putsym _ | .pflush => [.idle, .pack]
  | .ubyte _ | .uend _ | .mbit _ | .mend => [.idle, .decode]

/-- The mode a command ends in when it raises nothing, from the mode it starts in (R31). -/
def endMode (m : Mode) : Instr → Mode
  | .nop => m
  | .srst | .tclr | .tset _ _ _ | .pflush | .uend _ | .mend => .idle
  | .putcw _ _ | .putsym _ => .pack
  | .ubyte _ | .mbit _ => .decode

/-- The commands that close a decode stream. -/
def ClosesDecode (i : Instr) : Prop := i = .mend ∨ ∃ pad, i = .uend pad

/-- What a command of a block that is not faulted can do to MODE and FAULT (R31, R210). -/
inductive ModeOutcome (i : Instr) (s : State) : State → Prop
  /-- MODE does not admit the command: Sequence, and nothing else changes. -/
  | notAdmitted (hm : s.mode ∉ admittedModes i) : ModeOutcome i s (raise .sequence s)
  /-- A fault before any effect. -/
  | faulted {f : FaultCode} (hm : s.mode ∈ admittedModes i) (hf : f ≠ .noFault) (hu : f ≠ .unknownCodeword) :
    ModeOutcome i s (raise f s)
  /-- The stream ended inside a codeword: UnknownCodeword, and the stream stays open. -/
  | truncated {t : State} (hi : ClosesDecode i) (hm : s.mode = .decode) (hf : t.fault = .unknownCodeword)
    (ht : t.mode = .decode) : ModeOutcome i s t
  /-- The command raised nothing. -/
  | completed {t : State} (hm : s.mode ∈ admittedModes i) (hf : t.fault = .noFault)
    (ht : t.mode = endMode s.mode i) : ModeOutcome i s t

/-- MODE does not admit a command exactly in these rows (R91). -/
theorem not_mem_admittedModes {i : Instr} {m : Mode} : m ∉ admittedModes i ↔
    (isTableCommand i = true ∧ m ≠ .idle) ∨ (isPackCommand i = true ∧ m = .decode) ∨
      (isDecodeCommand i = true ∧ m = .pack) := by
  cases i <;> cases m <;> simp [admittedModes, isTableCommand, isPackCommand, isDecodeCommand]

theorem mem_idle_pack {m : Mode} : m ∈ [Mode.idle, .pack] ↔ m ≠ .decode := by cases m <;> decide

theorem mem_idle_decode {m : Mode} : m ∈ [Mode.idle, .decode] ↔ m ≠ .pack := by cases m <;> decide

/-- A table command starts and ends in IDLE (R94, R96). -/
theorem modes_of_isTableCommand {i : Instr} (hi : isTableCommand i = true) (m : Mode) :
    admittedModes i = [.idle] ∧ endMode m i = .idle := by
  cases i with
  | tclr => exact ⟨rfl, rfl⟩
  | tset sym len cw => exact ⟨rfl, rfl⟩
  | _ => cases hi

/-! ### The outcome of each rule -/

/-- MBIT and MEND while a byte is held: Sequence (R152, R154). -/
theorem requireNothingHeld_modeOutcome {i : Instr} {s : State} {rule : State → State}
    (hm : s.mode ∈ admittedModes i) (hr : s.holdV = false → ModeOutcome i s (rule s)) :
    ModeOutcome i s (requireNothingHeld rule s) := by
  unfold requireNothingHeld
  cases hv : s.holdV with
  | true => exact .faulted hm (by decide) (by decide)
  | false => exact hr hv

section Rules
variable {s : State} (hf : s.fault = .noFault)
include hf

/-- The frame of R90 and R91: a command's outcome is that of its rule, in a mode that admits it. -/
theorem modeOutcome_requireMode {i : Instr} {rule : State → State}
    (hr : s.mode ∈ admittedModes i → ModeOutcome i s (rule s)) :
    ModeOutcome i s (if s.fault = .noFault then
      (if s.mode ∈ admittedModes i then rule s else raise .sequence s) else s) := by
  rw [if_pos hf]
  by_cases hm : s.mode ∈ admittedModes i
  · rw [if_pos hm]; exact hr hm
  · rw [if_neg hm]; exact .notAdmitted hm

theorem tsetRule_modeOutcome {sym : Symbol} {len : Byte} {cw : Codeword}
    (hm : s.mode ∈ admittedModes (.tset sym len cw)) :
    ModeOutcome (.tset sym len cw) s (tsetRule sym len cw s) := by
  have hidle : s.mode = .idle := List.mem_singleton.mp hm
  rcases tsetRule_cases sym len cw s with ⟨_, h⟩ | ⟨_, _, h⟩ | ⟨_, _, h⟩ <;> rw [h]
  · exact .faulted hm (by decide) (by decide)
  · exact .faulted hm (by decide) (by decide)
  · exact .completed hm hf hidle

/-- A PUTCW or PUTSYM that appends its codeword has opened the pack stream. -/
theorem appendCodeword_modeOutcome {i : Instr} (hm : s.mode ∈ admittedModes i) (hend : endMode s.mode i = .pack)
    (bs : List Bool) : ModeOutcome i s (appendCodeword bs s) := by
  obtain ⟨items, h, _⟩ := appendCodeword_frame bs s
  rw [h]
  exact .completed hm hf hend.symm

theorem putcwRule_modeOutcome {len : Byte} {cw : Codeword} (hm : s.mode ∈ admittedModes (.putcw len cw)) :
    ModeOutcome (.putcw len cw) s (putcwRule len cw s) := by
  rcases putcwRule_cases len cw s with ⟨_, h⟩ | ⟨_, h⟩ <;> rw [h]
  · exact .faulted hm (by decide) (by decide)
  · exact appendCodeword_modeOutcome hf hm rfl _

theorem putsymRule_modeOutcome {sym : Symbol} (hm : s.mode ∈ admittedModes (.putsym sym)) :
    ModeOutcome (.putsym sym) s (putsymRule sym s) := by
  rcases putsymRule_cases sym s with ⟨_, h⟩ | ⟨e, _, h⟩ <;> rw [h]
  · exact .faulted hm (by decide) (by decide)
  · exact appendCodeword_modeOutcome hf hm rfl _

theorem pflushRule_modeOutcome (hm : s.mode ∈ admittedModes .pflush) : ModeOutcome .pflush s (pflushRule s) := by
  obtain ⟨items, h, _⟩ := pflushRule_frame s
  rw [h]
  exact .completed hm hf rfl

theorem ubyteRule_modeOutcome {b : Byte} (hm : s.mode ∈ admittedModes (.ubyte b)) :
    ModeOutcome (.ubyte b) s (ubyteRule b s) := by
  cases hv : s.holdV with
  | true => rw [ubyteRule_held hv]; exact .completed hm ((deliverBits_fault _ _).trans hf) rfl
  | false => rw [ubyteRule_none hv]; exact .completed hm hf rfl

theorem deliverBit_modeOutcome {bit : Bool} (hm : s.mode ∈ admittedModes (.mbit bit)) :
    ModeOutcome (.mbit bit) s (deliverBit { s with mode := .decode } bit) := by
  rw [deliverBit_frame]
  exact .completed hm hf rfl

/-- The terminal check after the last deliveries: bits can be left in the buffer in DECODE only (R151). -/
theorem endCheck_modeOutcome {i : Instr} {u : State} (hi : ClosesDecode i) (hm : s.mode ∈ admittedModes i)
    (hfault : u.fault = s.fault) (hmode : u.mode = s.mode) (hopen : u.mlen ≠ 0 → s.mode = .decode) :
    ModeOutcome i s (endCheck u) := by
  rcases endCheck_cases u with ⟨_, h⟩ | ⟨hu, h⟩ <;> rw [h]
  · refine .completed hm (hfault.trans hf) ?_
    rcases hi with rfl | ⟨pad, rfl⟩ <;> rfl
  · exact .truncated hi (hopen hu) rfl (hmode.trans (hopen hu))

end Rules

/-- In a mode that admits the decode commands, bits in the matcher or a held byte mean DECODE (I5). -/
theorem mode_eq_decode {s : State} (hinv : Inv s) (hm : s.mode ∈ [Mode.idle, .decode])
    (h : s.mlen ≠ 0 ∨ s.holdV = true) : s.mode = .decode := by
  cases hs : s.mode with
  | idle =>
    obtain ⟨-, -, hv, hlen, -⟩ := hinv.idleClosed hs
    simp [hv, hlen] at h
  | pack => simp [hs] at hm
  | decode => rfl

theorem mend_modeOutcome {s : State} (hinv : Inv s) (hf : s.fault = .noFault) (hm : s.mode ∈ admittedModes .mend) :
    ModeOutcome .mend s (endCheck s) :=
  endCheck_modeOutcome hf (.inl rfl) hm rfl rfl fun hlen => mode_eq_decode hinv hm (.inl hlen)

theorem uendRule_modeOutcome {s : State} (hinv : Inv s) (hf : s.fault = .noFault) {pad : Byte}
    (hm : s.mode ∈ admittedModes (.uend pad)) : ModeOutcome (.uend pad) s (uendRule pad s) := by
  rcases uendRule_cases pad s with ⟨_, h⟩ | ⟨_, _, h⟩ <;> rw [h]
  · exact .faulted hm (by decide) (by decide)
  · cases hv : s.holdV with
    | true =>
      rw [releaseFinal_held hv]
      exact endCheck_modeOutcome hf (.inr ⟨pad, rfl⟩) hm (deliverBits_fault _ _) (deliverBits_mode _ _)
        fun _ => mode_eq_decode hinv hm (.inr hv)
    | false =>
      rw [releaseFinal_none hv]
      exact endCheck_modeOutcome hf (.inr ⟨pad, rfl⟩) hm rfl rfl fun hlen => mode_eq_decode hinv hm (.inl hlen)

/-- The inversion lemma for MODE: every command has one of the four outcomes. -/
theorem exec_modeOutcome {i : Instr} {s t : State} (hinv : Inv s) (hf : s.fault = .noFault)
    (h : exec i s = .next t) : ModeOutcome i s t := by
  cases i with
  | nop =>
    cases (exec_nop s).symm.trans h
    exact .completed (by cases s.mode <;> decide) hf rfl
  | srst =>
    cases (exec_srst s).symm.trans h
    exact .completed (by cases s.mode <;> decide) rfl rfl
  | tclr =>
    cases (exec_tclr s).symm.trans h
    exact modeOutcome_requireMode (rule := fun s => { s with table := tabEmpty }) hf
      fun hm => .completed hm hf (List.mem_singleton.mp hm)
  | tset sym len cw =>
    cases (exec_tset sym len cw s).symm.trans h
    exact modeOutcome_requireMode hf (tsetRule_modeOutcome hf)
  | putcw len cw =>
    cases (exec_putcw len cw s).symm.trans h
    exact modeOutcome_requireMode hf (putcwRule_modeOutcome hf)
  | putsym sym =>
    cases (exec_putsym sym s).symm.trans h
    exact modeOutcome_requireMode hf (putsymRule_modeOutcome hf)
  | pflush =>
    cases (exec_pflush s).symm.trans h
    exact modeOutcome_requireMode hf (pflushRule_modeOutcome hf)
  | ubyte b =>
    cases (exec_ubyte b s).symm.trans h
    exact modeOutcome_requireMode hf (ubyteRule_modeOutcome hf)
  | uend pad =>
    cases (exec_uend pad s).symm.trans h
    exact modeOutcome_requireMode hf (uendRule_modeOutcome hinv hf)
  | mbit bit =>
    cases (exec_mbit bit s).symm.trans h
    exact modeOutcome_requireMode hf fun hm =>
      requireNothingHeld_modeOutcome hm fun _ => deliverBit_modeOutcome hf hm
  | mend =>
    cases (exec_mend s).symm.trans h
    exact modeOutcome_requireMode hf fun hm =>
      requireNothingHeld_modeOutcome hm fun _ => mend_modeOutcome hinv hf hm

/-! ### The clauses of the MODE table, from the outcome -/

section Clauses
variable {i : Instr} {s t : State} (h : ModeOutcome i s t)
include h

theorem ModeOutcome.eq_raise_sequence (hm : s.mode ∉ admittedModes i) : t = { s with fault := .sequence } := by
  cases h with
  | notAdmitted => rfl
  | faulted hm' => exact absurd hm' hm
  | truncated hi hd =>
    rcases hi with rfl | ⟨pad, rfl⟩ <;> exact absurd (by simp [hd, admittedModes]) hm
  | completed hm' => exact absurd hm' hm

theorem ModeOutcome.mode_of_fault (hf : t.fault ≠ .noFault) (hu : t.fault ≠ .unknownCodeword) :
    t.mode = s.mode := by
  cases h with
  | notAdmitted => rfl
  | faulted => rfl
  | truncated _ _ hf' => exact absurd hf' hu
  | completed _ hf' => exact absurd hf' hf

theorem ModeOutcome.of_unknownCodeword (hu : t.fault = .unknownCodeword) :
    ClosesDecode i ∧ s.mode = .decode ∧ t.mode = .decode := by
  cases h with
  | notAdmitted => cases hu
  | faulted _ _ hu' => exact absurd hu hu'
  | truncated hi hm _ ht => exact ⟨hi, hm, ht⟩
  | completed _ hf => cases hf.symm.trans hu

theorem ModeOutcome.of_noFault (hf : t.fault = .noFault) :
    s.mode ∈ admittedModes i ∧ t.mode = endMode s.mode i := by
  cases h with
  | notAdmitted => cases hf
  | faulted _ hf' => exact absurd hf hf'
  | truncated _ _ hf' => cases hf'.symm.trans hf
  | completed hm _ ht => exact ⟨hm, ht⟩

end Clauses

/-- Settles O20: reset and illegal words by what they do, the commands by the inversion lemma for MODE. -/
theorem modeChangesOnlyAsTabled : Obligations.ModeChangesOnlyAsTabled := by
  refine ⟨⟨rfl, rfl, rfl⟩, fun s => ⟨_, exec_srst s, rfl⟩, fun s rest h => ⟨_, step_hardwareReset h, rfl⟩,
    fun s w hw => ⟨_, executeWord_of_not_mem_opcodes hw s, ?_⟩, fun i s t hinv hf hexec => ?_⟩
  · split <;> rfl
  have h := exec_modeOutcome hinv hf hexec
  refine ⟨fun hrow => h.eq_raise_sequence (not_mem_admittedModes.mpr hrow), h.mode_of_fault,
    h.of_unknownCodeword, fun hnf => ?_⟩
  obtain ⟨hm, ht⟩ := h.of_noFault hnf
  rw [ht]
  refine ⟨?_, fun hi => ?_, ?_, ?_, ?_, ?_⟩
  · rintro rfl
    rfl
  · obtain ⟨hstart, hend⟩ := modes_of_isTableCommand hi s.mode
    exact ⟨List.mem_singleton.mp (hstart ▸ hm), hend⟩
  · rintro (⟨len, cw, rfl⟩ | ⟨sym, rfl⟩) <;> exact ⟨mem_idle_pack.mp hm, rfl⟩
  · rintro rfl
    exact ⟨mem_idle_pack.mp hm, rfl⟩
  · rintro (⟨b, rfl⟩ | ⟨b, rfl⟩) <;> exact ⟨mem_idle_decode.mp hm, rfl⟩
  · rintro (rfl | ⟨pad, rfl⟩) <;> exact ⟨mem_idle_decode.mp hm, rfl⟩

end Sys2Proof.Machine
end

section
/-! PROOF. What a command word says: `OP` picks the command, the other fields its operands, and a command looks at no
more of them than it uses (spec/30_encoding.md R70, R72 to R76). -/

namespace Sys2Proof

/-! ### The command of an opcode -/

/-- The command of the same opcode with its operands taken from the fields of a word (R71, R77). -/
def Instr.operandsFrom (c : Config) (w : CmdWord) : Instr → Instr
  | .nop => .nop
  | .srst => .srst
  | .tclr => .tclr
  | .tset _ _ _ => .tset (aField w) (lenField w) (cwField c w)
  | .putcw _ _ => .putcw (lenField w) (cwField c w)
  | .putsym _ => .putsym (aField w)
  | .pflush => .pflush
  | .ubyte _ => .ubyte (aField w)
  | .uend _ => .uend (aField w)
  | .mbit _ => .mbit ((aField w).getLsbD 0)
  | .mend => .mend

/-- A word with the opcode of a command decodes to that command, its operands taken from the word's fields (R72). -/
theorem decode_of_opField_eq {w : CmdWord} {i : Instr} (h : opField w = i.opcode) (c : Config) :
    decode c w = .command (i.operandsFrom c w) := by
  rw [decode, h]
  cases i <;> rfl

/-- Each of the eleven opcodes is the opcode of a command (R72); the operands shown are arbitrary. -/
theorem exists_opcode_eq {op : Byte} (h : op ∈ opcodes) : ∃ i : Instr, i.opcode = op := by
  have hmap : opcodes = ([.nop, .srst, .tclr, .tset 0 0 0, .putcw 0 0, .putsym 0, .pflush, .ubyte 0, .uend 0,
    .mbit false, .mend] : List Instr).map Instr.opcode := rfl
  obtain ⟨i, -, hi⟩ := List.mem_map.mp (hmap ▸ h)
  exact ⟨i, hi⟩

/-- Settles O3: an opcode of the eleven is some command's, which the word then decodes to; every other is illegal. -/
theorem opcodeAloneSelectsCommand : Obligations.OpcodeAloneSelectsCommand := by
  refine fun c w => ⟨fun hw => ?_, fun hw => decode_of_not_mem_opcodes hw c⟩
  obtain ⟨i, hi⟩ := exists_opcode_eq hw
  have hd := decode_of_opField_eq hi.symm c
  exact ⟨_, hd, opcode_of_decode hd, wf_of_decode hd⟩

/-! ### The word as its four fields -/

/-- Every word is its four fields side by side, the codeword field taken at its full width (R70). -/
theorem assemble_fields (w : CmdWord) :
    assemble (opField w) (lenField w) (aField w) (w.extractLsb' 24 255) = w := by
  apply BitVec.eq_of_toNat_eq
  have hw := w.isLt
  rw [assemble_toNat]
  simp only [opField, lenField, aField, BitVec.extractLsb'_toNat, Nat.shiftRight_eq_div_pow]
  omega

/-- In a word of CMDW bits the bits above `CW` are zero, so the mask of `cwField` takes nothing away (R70). -/
theorem cwField_of_fits {c : Config} {w : CmdWord} (h : CmdWord.fits c w = true) :
    cwField c w = w.extractLsb' 24 255 := by
  have hw : w.toNat < 2 ^ 24 * 2 ^ c.lmax := by
    simpa [CmdWord.fits, Config.cmdw, Nat.pow_add] using h
  apply and_mask_of_lt c.lmax_le_255
  rw [BitVec.extractLsb'_toNat, Nat.shiftRight_eq_div_pow]
  exact (Nat.mod_le _ _).trans_lt (Nat.div_lt_of_lt_mul hw)

/-- Settles O5: a word is the assembly of its fields, and the decoder takes each operand from its field. -/
theorem commandWordIsItsFourFields : Obligations.CommandWordIsItsFourFields := by
  refine fun c w => ⟨and_mask_lt c.lmax_le_255 _, fun hfits => ?_,
    fun h => decode_of_opField_eq (i := .tset 0 0 0) h c, fun h => decode_of_opField_eq (i := .putcw 0 0) h c,
    fun h => decode_of_opField_eq (i := .putsym 0) h c, fun h => decode_of_opField_eq (i := .ubyte 0) h c,
    fun h => decode_of_opField_eq (i := .uend 0) h c, fun h => ?_⟩
  · rw [cwField_of_fits hfits, ← assemble_toNat, assemble_fields]
  · have hbit : (aField w).getLsbD 0 = decide ((aField w).toNat % 2 = 1) := Nat.testBit_zero _
    rw [← hbit]
    exact decode_of_opField_eq (i := .mbit false) h c

end Sys2Proof

namespace Sys2Proof.Machine

/-! ### Ignored fields -/

/-- The first n bits as a sequence depend on no other bit. -/
theorem bits_congr {w n : Nat} {a b : BitVec w} (h : ∀ j, j < n → a.getLsbD j = b.getLsbD j) :
    bits n a = bits n b :=
  List.map_congr_left fun j hj => h j (List.mem_range.mp hj)

/-- The codeword operand is its length and its bits below the length (R76). -/
theorem codewordOperand_congr {len : Byte} {cw cw' : Codeword} (h : bits len.toNat cw = bits len.toNat cw') :
    codewordOperand len cw = codewordOperand len cw' := by
  have hlen : len.toNat ≤ 255 := Nat.le_of_lt_succ len.isLt
  apply entry_eq_of_bits_eq (and_mask_lt hlen cw) (and_mask_lt hlen cw')
  exact (bits_and_mask hlen cw).trans (h.trans (bits_and_mask hlen cw').symm)

/-- TSET does not look at the codeword bits at and above its length (R74). -/
theorem exec_tset_congr (sym : Symbol) {len : Byte} {cw cw' : Codeword}
    (h : bits len.toNat cw = bits len.toNat cw') (s : State) :
    exec (.tset sym len cw) s = exec (.tset sym len cw') s := by
  rw [exec_tset, exec_tset, tsetRule, tsetRule, codewordOperand_congr h]

/-- PUTCW does not look at the codeword bits at and above its length (R74). -/
theorem exec_putcw_congr {len : Byte} {cw cw' : Codeword}
    (h : bits len.toNat cw = bits len.toNat cw') (s : State) :
    exec (.putcw len cw) s = exec (.putcw len cw') s := by
  rw [exec_putcw, exec_putcw, putcwRule, putcwRule, h]

/-- A word with the opcode of a command runs that command on the word's fields (R90). -/
theorem executeWord_of_opField_eq {w : CmdWord} {i : Instr} (h : opField w = i.opcode) (s : State) :
    executeWord w s = exec (i.operandsFrom s.cfg w) s := by
  rw [executeWord, decode_of_opField_eq h]

/-- A TSET that leaves the block without a fault has written its codeword operand (R96). -/
theorem tabRead_of_exec_tset {s t : State} {sym : Symbol} {len : Byte} {cw : Codeword} (hs : s.fault = .noFault)
    (h : exec (.tset sym len cw) s = .next t) (ht : t.fault = .noFault) :
    tabRead t.table sym = some (codewordOperand len cw) := by
  rw [exec_tset, if_pos hs] at h
  by_cases hm : s.mode ∈ [Mode.idle]
  · rw [if_pos hm] at h
    cases h
    rcases tsetRule_cases sym len cw s with ⟨-, hr⟩ | ⟨-, -, hr⟩ | ⟨-, -, hr⟩ <;> rw [hr] at ht ⊢
    · cases ht
    · cases ht
    · exact tabRead_tabWrite_same _ _ _
  · rw [if_neg hm] at h
    cases h
    cases ht

/-- Two words with the opcode of `i` that agree on the fields `i` uses have the same outcome in every state (R74). -/
theorem exec_operandsFrom_congr {i : Instr} {w w' : CmdWord} {s : State}
    (hcw : i.opcode ∈ [0x11#8, 0x20#8] → lenField w = lenField w' ∧
      ∀ j, j < (lenField w).toNat → (cwField s.cfg w).getLsbD j = (cwField s.cfg w').getLsbD j)
    (ha : i.opcode ∈ [0x11#8, 0x21#8, 0x30#8, 0x31#8] → aField w = aField w')
    (hbit : i.opcode = 0x32#8 → (aField w).getLsbD 0 = (aField w').getLsbD 0) :
    exec (i.operandsFrom s.cfg w) s = exec (i.operandsFrom s.cfg w') s := by
  cases i with
  | nop | srst | tclr | pflush | mend => rfl
  | tset sym len cw =>
    obtain ⟨hlen, hbits⟩ := hcw (by simp [Instr.opcode])
    simp only [Instr.operandsFrom, ha (by simp [Instr.opcode]), ← hlen]
    exact exec_tset_congr _ (bits_congr hbits) s
  | putcw len cw =>
    obtain ⟨hlen, hbits⟩ := hcw (by simp [Instr.opcode])
    simp only [Instr.operandsFrom, ← hlen]
    exact exec_putcw_congr (bits_congr hbits) s
  | putsym _ | ubyte _ | uend _ => simp only [Instr.operandsFrom, ha (by simp [Instr.opcode])]
  | mbit bit => simp only [Instr.operandsFrom, hbit rfl]

/-- Settles O4: words of one opcode run one command, which looks at no field it ignores; other words of one opcode
are illegal alike. -/
theorem ignoredFieldsHaveNoEffect : Obligations.IgnoredFieldsHaveNoEffect := by
  have hzero : opField 0 = Instr.nop.opcode := by simp [opField, Instr.opcode]
  refine ⟨fun w w' s hop hcw ha hbit => ?_, decode_of_opField_eq hzero, fun s t sym len cw hs h ht => ?_⟩
  · by_cases hw : opField w ∈ opcodes
    · obtain ⟨i, hi⟩ := exists_opcode_eq hw
      rw [executeWord_of_opField_eq hi.symm, executeWord_of_opField_eq (hop.symm.trans hi.symm)]
      rw [← hi] at hcw ha hbit
      exact exec_operandsFrom_congr hcw ha hbit
    · rw [executeWord_of_not_mem_opcodes hw, executeWord_of_not_mem_opcodes (hop ▸ hw)]
  · rw [tabRead_of_exec_tset hs h ht, codewordOperand_eq]

/-! ### Illegal words -/

/-- Settles O9: the frame of an illegal word, in a block that is not faulted. -/
theorem illegalOpcodeRaisesIllegalCommand : Obligations.IllegalOpcodeRaisesIllegalCommand := by
  intro s w hf hw
  rw [executeWord_of_not_mem_opcodes hw, if_pos hf]
  rfl

end Sys2Proof.Machine
end

section
/-! PROOF. The system and table commands (spec/40_system_table.md R92 to R96): the mode check of a command in a block
that is not faulted, and the three outcomes of TSET each from its condition. -/

namespace Sys2Proof.Machine

/-! ### The mode check -/

section ModeCheck
variable {allowed : List Mode} {rule : State → State} {s : State} (hf : s.fault = .noFault)
include hf

/-- A command in a mode that admits it runs its rule (R91). -/
theorem honour_requireMode_of_mem (hm : s.mode ∈ allowed) :
    honour (requireMode allowed rule) s = .next (rule s) := by
  rw [honour_requireMode, if_pos hf, if_pos hm]

/-- A command in a mode that does not admit it raises Sequence (R91). -/
theorem honour_requireMode_of_not_mem (hm : s.mode ∉ allowed) :
    honour (requireMode allowed rule) s = .next (raise .sequence s) := by
  rw [honour_requireMode, if_pos hf, if_neg hm]

end ModeCheck

/-! ### The content search -/

/-- Settles O29: what the search names it has found, and in a table without duplicates it finds what is there. -/
theorem lookupNamesTheOneEntry : Obligations.LookupNamesTheOneEntry :=
  fun _ _ _ hd => ⟨fun _ => ⟨lookup_some, lookup_of_tabRead hd⟩, lookup_none⟩

@[simp] theorem lookup_tabEmpty (n : Byte) (c : Codeword) : lookup tabEmpty n c = none :=
  lookup_none.mpr fun sym => by simp

/-! ### TSET -/

/-- TSET's duplicate check fails when another symbol holds the codeword (R96). -/
theorem heldByAnother_of_tabRead {t : Table} {sym other : Symbol} {e : Entry} (hd : CodewordsDistinct t)
    (hne : other ≠ sym) (h : tabRead t other = some e) : heldByAnother t sym e = true :=
  Bool.of_not_eq_false fun hfree => heldByAnother_false hd hfree other hne h

section Tset
variable {s : State} {sym : Symbol} {len : Byte} {cw : Codeword}

theorem tsetRule_of_badLength (h : lengthOk s.cfg len = false) :
    tsetRule sym len cw s = raise .badLength s := by
  simp [tsetRule, h]

theorem tsetRule_of_duplicate (hlen : lengthOk s.cfg len = true)
    (h : heldByAnother s.table sym (codewordOperand len cw) = true) :
    tsetRule sym len cw s = raise .duplicateCodeword s := by
  simp [tsetRule, hlen, h]

theorem tsetRule_of_free (hlen : lengthOk s.cfg len = true)
    (h : heldByAnother s.table sym (codewordOperand len cw) = false) :
    tsetRule sym len cw s = { s with table := tabWrite s.table sym (codewordOperand len cw) } := by
  simp [tsetRule, hlen, h]

end Tset

/-- Settles O30: the checks of R96 in their order, each with the outcome of TSET's rule, then the write. -/
theorem tsetWritesItsEntryOrFaults : Obligations.TsetWritesItsEntryOrFaults := by
  intro s sym len cw hf hd
  have hidle (hm : s.mode = .idle) : exec (.tset sym len cw) s = .next (tsetRule sym len cw s) :=
    honour_requireMode_of_mem hf (List.mem_singleton.mpr hm)
  rw [← codewordOperand_eq]
  refine ⟨fun hm => ?_, fun hm hlen => ?_, fun hm h1 hmax hdup => ?_, fun hm h1 hmax hfree => ?_⟩
  · exact honour_requireMode_of_not_mem hf (hm ∘ List.mem_singleton.mp)
  · rw [hidle hm, tsetRule_of_badLength (lengthOk_false.mpr hlen)]
    rfl
  · obtain ⟨other, hne, hother⟩ := hdup
    rw [hidle hm, tsetRule_of_duplicate (lengthOk_iff.mpr ⟨h1, hmax⟩) (heldByAnother_of_tabRead hd hne hother)]
    rfl
  · rw [hidle hm, tsetRule_of_free (lengthOk_iff.mpr ⟨h1, hmax⟩) (heldByAnother_eq_false hfree)]
    exact ⟨_, rfl, tabRead_tabWrite_same _ _ _, fun _ => tabRead_tabWrite_other _ _⟩

/-! ### NOP, SRST and TCLR -/

/-- Settles O26: a word with NOP's opcode runs NOP, which leaves the state. -/
theorem nopChangesNothing : Obligations.NopChangesNothing :=
  fun s => ⟨exec_nop s, fun _ hw => (executeWord_of_opField_eq (i := .nop) hw s).trans (exec_nop s)⟩

/-- Settles O27: SRST is `resetBlock` in every state, and a faulted block refuses the other commands. -/
theorem srstRestoresResetState : Obligations.SrstRestoresResetState :=
  fun s => ⟨⟨_, exec_srst s, by simp⟩, fun _ hw => executeWord_of_opField_eq (i := .srst) hw s,
    fun _ hi hf => exec_faulted hf hi⟩

/-- PUTSYM of a symbol with no valid entry raises UnknownSymbol (R114). -/
theorem exec_putsym_of_tabRead_none {s : State} {sym : Symbol} (hf : s.fault = .noFault) (hm : s.mode ≠ .decode)
    (h : tabRead s.table sym = none) : exec (.putsym sym) s = .next (raise .unknownSymbol s) := by
  have hrule : exec (.putsym sym) s = .next (putsymRule sym s) :=
    honour_requireMode_of_mem hf (mem_idle_pack.mpr hm)
  rw [hrule, putsymRule, h]

/-- Settles O28: in IDLE the empty table is written, in which nothing is found. -/
theorem tclrInvalidatesEveryEntry : Obligations.TclrInvalidatesEveryEntry := by
  refine fun s hf => ⟨fun hm => ⟨tabEmpty, ?_, tabRead_tabEmpty, lookup_tabEmpty, fun sym => ?_⟩, fun hm => ?_⟩
  · exact honour_requireMode_of_mem hf (List.mem_singleton.mpr hm)
  · exact exec_putsym_of_tabRead_none hf (by simp [hm]) (tabRead_tabEmpty sym)
  · exact honour_requireMode_of_not_mem hf (hm ∘ List.mem_singleton.mp)

end Sys2Proof.Machine
end

section
/-! PROOF. The pack commands (spec/41_pack.md R112 to R118): a run of them is PackBit over the bits they append, and
PFLUSH emits the short group and the padding count that goes with `cnt`. -/

namespace Sys2Proof.Machine

/-! ### A pack stream as PackBit over its bits -/

/-- PackBit does not look at MODE, and keeps it. -/
theorem packBit_withMode (s : State) (m : Mode) (b : Bool) :
    packBit { s with mode := m } b = { packBit s b with mode := m } := by
  by_cases h : s.cnt = 7
  · rw [packBit_eighth h, packBit_eighth (s := { s with mode := m }) h]; rfl
  · rw [packBit_earlier h, packBit_earlier (s := { s with mode := m }) h]

theorem packBits_withMode (bs : List Bool) (s : State) (m : Mode) :
    packBits bs { s with mode := m } = { packBits bs s with mode := m } := by
  induction bs generalizing s with
  | nil => rfl
  | cons b bs ih => rw [packBits_cons, packBit_withMode, ih, packBits_cons]

@[simp] theorem packBits_cfg (bs : List Bool) (s : State) : (packBits bs s).cfg = s.cfg := by
  rw [packBits_frame]

@[simp] theorem packBits_table (bs : List Bool) (s : State) : (packBits bs s).table = s.table := by
  rw [packBits_frame]

@[simp] theorem packBits_fault (bs : List Bool) (s : State) : (packBits bs s).fault = s.fault := by
  rw [packBits_frame]

/-- `cnt` counts the packed bits mod 8 (R118). -/
theorem packBits_cnt_toNat (bs : List Bool) (s : State) :
    (packBits bs s).cnt.toNat = (s.cnt.toNat + bs.length) % 8 := by
  obtain ⟨-, hwait⟩ := packBits_waiting s bs
  have hlen := congrArg List.length hwait
  rw [leftover_length] at hlen
  simpa [waiting] using hlen

/-- A command of a pack stream that does not fault is PackBit over the bits it appends, and leaves a mode that admits
the next one (R112, R114). -/
theorem exec_of_packsWithoutFault {i : Instr} {s : State} (hf : s.fault = .noFault) (hm : s.mode ≠ .decode)
    (hi : PacksWithoutFault s.cfg s.table i) :
    ∃ m, m ≠ .decode ∧ exec i s = .next { packBits (packedBits s.table i) s with mode := m } := by
  have happend (bs : List Bool) : appendCodeword bs s = { packBits bs s with mode := .pack } :=
    packBits_withMode bs s .pack
  have hadm : s.mode ∈ [Mode.idle, .pack] := mem_idle_pack.mpr hm
  cases i with
  | nop => exact ⟨s.mode, hm, exec_nop s⟩
  | putcw len cw =>
    have hrule : exec (.putcw len cw) s = .next (putcwRule len cw s) := honour_requireMode_of_mem hf hadm
    rcases putcwRule_cases len cw s with ⟨hlen, -⟩ | ⟨-, h⟩
    · exact absurd (lengthOk_iff.mpr hi) (by simp [hlen])
    · exact ⟨.pack, by decide, by rw [hrule, h, happend]; rfl⟩
  | putsym sym =>
    have hrule : exec (.putsym sym) s = .next (putsymRule sym s) := honour_requireMode_of_mem hf hadm
    rcases putsymRule_cases sym s with ⟨hnone, -⟩ | ⟨e, he, h⟩
    · exact absurd hnone hi
    · exact ⟨.pack, by decide, by rw [hrule, h, happend, packedBits, codewordOf, he]⟩
  | srst | tclr | tset _ _ _ | pflush | ubyte _ | uend _ | mbit _ | mend => exact absurd hi id

/-- A run of such commands is PackBit over the concatenation of their bits (R118, R119). -/
theorem execAll_of_packsWithoutFault {cmds : List Instr} {s : State} (hf : s.fault = .noFault)
    (hm : s.mode ≠ .decode) (hcmds : ∀ i ∈ cmds, PacksWithoutFault s.cfg s.table i) :
    ∃ m, m ≠ .decode ∧
      execAll cmds s = .next { packBits (cmds.flatMap (packedBits s.table)) s with mode := m } := by
  induction cmds generalizing s with
  | nil => exact ⟨s.mode, hm, rfl⟩
  | cons i cmds ih =>
    rw [List.forall_mem_cons] at hcmds
    obtain ⟨hi, hrest⟩ := hcmds
    obtain ⟨m, hm', hexec⟩ := exec_of_packsWithoutFault hf hm hi
    obtain ⟨m', hm'', hall⟩ := ih (s := { packBits (packedBits s.table i) s with mode := m })
      (by simpa using hf) hm' (by simpa using hrest)
    refine ⟨m', hm'', ?_⟩
    rw [execAll, hexec]
    refine hall.trans ?_
    rw [packBits_withMode, packBits_table, List.flatMap_cons, packBits_append]

/-! ### PFLUSH -/

section Pflush
variable {s : State}

/-- With a partial byte: the short group, then the padding count (R116). -/
theorem pflushRule_of_cnt_ne_zero (h : s.cnt ≠ 0) :
    pflushRule s = { s with
      acc := 0, cnt := 0, mode := .idle,
      bout := s.bout ++ [{ data := s.acc, last := false },
        { data := BitVec.ofNat 8 (8 - s.cnt.toNat), last := true }] } := by
  rw [pflushRule, padding, if_neg h, if_neg h]
  simp [emitBout]

/-- At a byte boundary: the padding count 0 only (R116). -/
theorem pflushRule_of_cnt_eq_zero (h : s.cnt = 0) :
    pflushRule s = { s with
      acc := 0, cnt := 0, mode := .idle, bout := s.bout ++ [{ data := 0, last := true }] } := by
  rw [pflushRule, padding, if_pos h, if_pos h]
  rfl

theorem exec_pflush_eq_pflushRule (hf : s.fault = .noFault) (hm : s.mode ≠ .decode) :
    exec .pflush s = .next (pflushRule s) :=
  honour_requireMode_of_mem hf (mem_idle_pack.mpr hm)

end Pflush

/-- The last item of a stream is the padding count, marked last (R116). -/
theorem pflushRule_bout_getLast? (s : State) :
    (pflushRule s).bout.getLast? = some { data := padding s.cnt, last := true } :=
  List.getLast?_concat

/-- The padding count from the number of packed bits mod 8 (R118). -/
theorem padding_eq {c : BitVec 3} {T : Nat} (h : c.toNat = T % 8) :
    padding c = BitVec.ofNat 8 (if T % 8 = 0 then 0 else 8 - T % 8) := by
  have hzero : c = 0 ↔ T % 8 = 0 := by rw [← h]; exact BitVec.toNat_inj.symm
  simp only [padding, hzero, h]
  split <;> rfl

/-- Settles O35: the two forms of PFLUSH's rule, and the mode check. -/
theorem pflushEndsStreamWithPadding : Obligations.PflushEndsStreamWithPadding := by
  refine fun s hf => ⟨fun hm hcnt => ?_, fun hm hcnt => ?_, fun hm => ?_⟩
  · rw [exec_pflush_eq_pflushRule hf hm, pflushRule_of_cnt_ne_zero hcnt]
  · rw [exec_pflush_eq_pflushRule hf hm, pflushRule_of_cnt_eq_zero hcnt]
  · exact honour_requireMode_of_not_mem hf fun hmem => mem_idle_pack.mp hmem hm

/-- Settles O36: the run packs the bits of its commands from `cnt = 0`, and PFLUSH's last item follows `cnt`. -/
theorem cntIsTheBitCountModEight : Obligations.CntIsTheBitCountModEight := by
  intro s cmds hinv hidle hf hcmds total pad
  have hpad : pad = (8 - total % 8) % 8 := by
    simp only [pad]
    split <;> omega
  obtain ⟨hcnt0, -⟩ := hinv.idleClosed hidle
  obtain ⟨m, hm, hrun⟩ := execAll_of_packsWithoutFault hf (by simp [hidle]) hcmds
  have hcnt : (packBits (cmds.flatMap (packedBits s.table)) s).cnt.toNat = total % 8 := by
    rw [packBits_cnt_toNat, hcnt0]
    simp [total]
  refine ⟨hpad, by omega, _, _, hrun, hcnt, exec_pflush_eq_pflushRule (by simpa using hf) hm, ?_⟩
  rw [pflushRule_bout_getLast?, padding_eq hcnt]

end Sys2Proof.Machine
end

section
/-! PROOF. The unpack commands (spec/42_unpack.md R132, R134): the mode check, the padding checks of UEND, and the
terminal check on what the held byte's bits left in the matcher. -/

namespace Sys2Proof.Machine

/-! ### The terminal check -/

theorem endCheck_of_mlen_eq_zero {s : State} (h : s.mlen = 0) : endCheck s = { s with mode := .idle } := if_pos h

theorem endCheck_of_mlen_ne_zero {s : State} (h : s.mlen ≠ 0) : endCheck s = raise .unknownCodeword s := if_neg h

section Unpack
variable {s : State} (hf : s.fault = .noFault) (hm : s.mode ≠ .pack)

/-! ### The mode check -/

include hf in
theorem exec_ubyte_of_mode_eq_pack (h : s.mode = .pack) (b : Byte) :
    exec (.ubyte b) s = .next (raise .sequence s) :=
  honour_requireMode_of_not_mem hf fun hmem => mem_idle_decode.mp hmem h

include hf in
theorem exec_uend_of_mode_eq_pack (h : s.mode = .pack) (pad : Byte) :
    exec (.uend pad) s = .next (raise .sequence s) :=
  honour_requireMode_of_not_mem hf fun hmem => mem_idle_decode.mp hmem h

include hf hm

theorem exec_ubyte_eq_ubyteRule (b : Byte) : exec (.ubyte b) s = .next (ubyteRule b s) :=
  honour_requireMode_of_mem hf (mem_idle_decode.mpr hm)

theorem exec_uend_eq_uendRule (pad : Byte) : exec (.uend pad) s = .next (uendRule pad s) :=
  honour_requireMode_of_mem hf (mem_idle_decode.mpr hm)

/-! ### UEND: the padding checks, then the release and the terminal check -/

/-- A padding count above 7, or one that has no byte to drop bits from, faults before any effect (R134 (c) to (e)). -/
theorem exec_uend_of_badPadding {pad : Byte} (h : 7 < pad.toNat ∨ (s.holdV = false ∧ pad ≠ 0)) :
    exec (.uend pad) s = .next (raise .badPadding s) := by
  rw [exec_uend_eq_uendRule hf hm]
  rcases uendRule_cases pad s with ⟨-, heq⟩ | ⟨hle, hheld, -⟩
  · rw [heq]
  · rcases h with hgt | ⟨hv, hp⟩
    · omega
    · exact absurd (hheld.resolve_left (by simp [hv])) hp

/-- With an admitted padding count, the terminal check runs on what the final release leaves (R134). -/
theorem exec_uend_of_admittedPadding {pad : Byte} (hle : pad.toNat ≤ 7) (hheld : s.holdV = true ∨ pad = 0) :
    exec (.uend pad) s = .next (endCheck (releaseFinal pad s)) := by
  rw [exec_uend_eq_uendRule hf hm]
  rcases uendRule_cases pad s with ⟨hgt | ⟨hv, hp⟩, -⟩ | ⟨-, -, heq⟩
  · omega
  · exact absurd (hheld.resolve_left (by simp [hv])) hp
  · rw [heq]

/-- With a byte held, its first `8 - pad` bits are delivered and it is dropped before the check (R134 (f)). -/
theorem exec_uend_of_held {pad : Byte} (hle : pad.toNat ≤ 7) (hv : s.holdV = true) :
    exec (.uend pad) s =
      .next (endCheck { deliverBits (bits (8 - pad.toNat) s.hold) s with hold := 0, holdV := false }) := by
  rw [exec_uend_of_admittedPadding hf hm hle (.inl hv), releaseFinal_held hv]

/-- With no byte held nothing is released: the check sees what the stream left in the matcher (R134 (b)). -/
theorem exec_uend_zero_of_none_held (hv : s.holdV = false) : exec (.uend 0) s = .next (endCheck s) := by
  rw [exec_uend_of_admittedPadding hf hm (by decide) (.inr rfl), releaseFinal_none hv]

end Unpack

/-- Settles O39: the mode check, the padding checks, and both outcomes of the terminal check with and without a held
byte. -/
theorem uendReleasesAllButPadding : Obligations.UendReleasesAllButPadding := by
  refine fun s pad hf => ⟨fun hp => exec_uend_of_mode_eq_pack hf hp pad,
    fun hm hbad => exec_uend_of_badPadding hf hm hbad, fun hm hle hv => ?_, fun hm hv => ?_⟩
  · rw [exec_uend_of_held hf hm hle hv]
    exact ⟨fun h => congrArg _ (endCheck_of_mlen_eq_zero h), fun h => congrArg _ (endCheck_of_mlen_ne_zero h)⟩
  · rw [exec_uend_zero_of_none_held hf hm hv]
    exact ⟨fun h => congrArg _ (endCheck_of_mlen_eq_zero h), fun h => congrArg _ (endCheck_of_mlen_ne_zero h)⟩

/-- Settles O38: the two forms of UBYTE's rule, and the mode check. -/
theorem ubyteReleasesHeldByte : Obligations.UbyteReleasesHeldByte := by
  refine fun s b hf => ⟨fun hm hv => ?_, fun hm hv => ?_, fun hp => exec_ubyte_of_mode_eq_pack hf hp b⟩
  · rw [exec_ubyte_eq_ubyteRule hf hm, ubyteRule_none hv]
  · rw [exec_ubyte_eq_ubyteRule hf hm, ubyteRule_held hv]
    rfl

end Sys2Proof.Machine
end

section
/-! PROOF. The matcher on bit sequences (spec/43_match.md R150, R157): a codeword delivered from the empty buffer emits
its symbol, bits that begin with no codeword are kept up to LMAX, and so a parse of the stream is what is emitted. -/

namespace Sys2Proof.Machine

/-! ### The buffer's length -/

/-- The buffer never holds more than LMAX bits (R25). -/
theorem MatcherInv.mlen_le {s : State} (h : MatcherInv s) : s.mlen.toNat ≤ s.cfg.lmax := by
  cases hm : s.movf with
  | true => exact (h.movfFull hm).le
  | false => exact (h.bufferRoom hm).le

theorem MatcherInv.movf_eq_false {s : State} (h : MatcherInv s) (hlt : s.mlen.toNat < s.cfg.lmax) :
    s.movf = false :=
  Bool.eq_false_of_not_eq_true fun hm => hlt.ne (h.movfFull hm)

/-! ### One bit -/

/-- The bit that completes a codeword emits its symbol and empties the buffer (R150). -/
theorem deliverBit_of_completed {s : State} (h : MatcherInv s) (hd : CodewordsDistinct s.table)
    (hm : s.movf = false) {b : Bool} {sym : Symbol} {e : Entry} (he : tabRead s.table sym = some e)
    (hbits : e.bits = buffered s ++ [b]) : deliverBit s b = { emitSout sym s with mbuf := 0, mlen := 0 } :=
  deliverBit_matched hm ((lookup_grownBuffer h hd hm b sym).mpr ⟨e, he, hbits⟩)

/-- The grown buffer's value: the new bit at the weight of position `mlen` (R150). -/
theorem grownBuffer_eq_ofNat {s : State} (h : MatcherInv s) (hm : s.movf = false) (b : Bool) :
    grownBuffer s b = BitVec.ofNat 255 (s.mbuf.toNat + b.toNat * 2 ^ s.mlen.toNat) := by
  have hlt : s.mlen.toNat < 255 := (h.bufferRoom hm).trans_le (lmax_le s.cfg)
  rw [← setBit_toNat hlt h.mbufClear b, BitVec.ofNat_toNat, BitVec.setWidth_eq, grownBuffer]

theorem mlen_succ_eq_ofNat (s : State) : s.mlen + 1 = BitVec.ofNat 8 (s.mlen.toNat + 1) := by
  rw [BitVec.ofNat_add, BitVec.ofNat_toNat, BitVec.setWidth_eq]
  rfl

/-- Settles O42: the three outcomes of DeliverBit, with the match test said on bit sequences. -/
theorem deliverBitMatchesWholeCodewords : Obligations.DeliverBitMatchesWholeCodewords := by
  intro s b hinv
  have h : MatcherInv s := hinv.matcherInv
  have hd : CodewordsDistinct s.table := hinv.codewordsDistinct
  have hcfg : (deliverBit s b).cfg = s.cfg := deliverBits_cfg [b] s
  refine ⟨fun hm => deliverBit_dropped hm b, fun hm => ⟨fun sym e he hbits => ?_, fun hnone => ?_⟩, ?_⟩
  · exact deliverBit_of_completed h hd hm he hbits
  · obtain ⟨heq, -⟩ := deliverBit_unmatched h hd hnone hm
    rw [heq, mlen_succ_toNat (h.bufferRoom hm), grownBuffer_eq_ofNat h hm, mlen_succ_eq_ofNat]
  · rw [← hcfg]
    exact (deliverBit_matcherInv h b).mlen_le

/-! ### Bits without a codeword at their head -/

/-- A full unmatched buffer drops every later bit (R26). -/
theorem deliverBits_dropped {s : State} (h : s.movf = true) (bs : List Bool) : deliverBits bs s = s := by
  induction bs with
  | nil => rfl
  | cons b bs ih => rw [deliverBits_cons, deliverBit_dropped h, ih]

/-- Bits that continue the buffer to a string that begins with no codeword emit nothing, and the buffer takes them up to
LMAX. -/
theorem deliverBits_unmatched {s : State} (h : MatcherInv s) (hd : CodewordsDistinct s.table) {bs : List Bool}
    (hn : ∀ sym e, tabRead s.table sym = some e → ¬ e.bits <+: buffered s ++ bs) :
    (deliverBits bs s).sout = s.sout ∧ buffered (deliverBits bs s) = (buffered s ++ bs).take s.cfg.lmax := by
  induction bs generalizing s with
  | nil =>
    have hlen : (buffered s).length ≤ s.cfg.lmax := (buffered_length s).trans_le h.mlen_le
    simp [List.take_of_length_le hlen]
  | cons b bs ih =>
    cases hm : s.movf with
    | true =>
      have hlen : (buffered s).length = s.cfg.lmax := (buffered_length s).trans (h.movfFull hm)
      simp [deliverBits_dropped hm, ← hlen]
    | false =>
      have hsplit : buffered s ++ b :: bs = buffered s ++ [b] ++ bs := by simp
      have hne : ∀ sym e, tabRead s.table sym = some e → e.bits ≠ buffered s ++ [b] := fun sym e he heq =>
        hn sym e he ⟨bs, by rw [heq, hsplit]⟩
      obtain ⟨heq, hbuf⟩ := deliverBit_unmatched h hd hne hm
      have htab : (deliverBit s b).table = s.table := deliverBits_table [b] s
      have hcfg : (deliverBit s b).cfg = s.cfg := deliverBits_cfg [b] s
      have hsout : (deliverBit s b).sout = s.sout := by rw [heq]
      have hrest := ih (deliverBit_matcherInv h b) (htab ▸ hd) (by rwa [htab, hbuf, ← hsplit])
      rwa [hsout, hcfg, hbuf, ← hsplit] at hrest

/-! ### Codewords of a prefix-free table -/

theorem PrefixFree.codewordsDistinct {t : Table} (h : PrefixFree t) : CodewordsDistinct t :=
  fun sym sym' e he he' => h sym sym' e e he he' (List.prefix_refl _)

/-- No codeword of a prefix-free table stands at the head of a proper prefix of another (R35). -/
theorem PrefixFree.not_prefix_of_lt {t : Table} (h : PrefixFree t) {sym sym' : Symbol} {e e' : Entry}
    (he : tabRead t sym = some e) (he' : tabRead t sym' = some e') {p : List Bool} (hp : p <+: e.bits)
    (hlt : p.length < e.bits.length) : ¬ e'.bits <+: p := by
  intro hpre
  obtain rfl : sym' = sym := h _ _ _ _ he' he (hpre.trans hp)
  obtain rfl : e = e' := Option.some.inj (he.symm.trans he')
  exact hlt.not_ge hpre.length_le

section PrefixFreeTable
variable {s : State} (h : MatcherInv s) (hpf : PrefixFree s.table) (h0 : s.mlen = 0)
include h hpf h0

/-- A proper prefix of a codeword, delivered from the empty buffer, emits nothing and is what the buffer then
holds, with room for one more bit. -/
theorem deliverBits_of_proper_prefix {sym : Symbol} {e : Entry} (he : tabRead s.table sym = some e) {p : List Bool}
    (hp : p <+: e.bits) (hlt : p.length < e.bits.length) :
    (deliverBits p s).sout = s.sout ∧ buffered (deliverBits p s) = p ∧ (deliverBits p s).movf = false := by
  have hbuf : buffered s = [] := buffered_eq_nil.mpr h0
  obtain ⟨-, hmax, -⟩ := h.entriesInRange sym e he
  have hroom : p.length < s.cfg.lmax := hlt.trans_le ((bits_length _ _).trans_le hmax)
  have hn : ∀ sym' e', tabRead s.table sym' = some e' → ¬ e'.bits <+: buffered s ++ p := fun sym' e' he' => by
    rw [hbuf, List.nil_append]
    exact hpf.not_prefix_of_lt he he' hp hlt
  obtain ⟨hsout, hbits⟩ := deliverBits_unmatched h hpf.codewordsDistinct hn
  rw [hbuf, List.nil_append, List.take_of_length_le hroom.le] at hbits
  refine ⟨hsout, hbits, (deliverBits_matcherInv h p).movf_eq_false ?_⟩
  rwa [← buffered_length, hbits, deliverBits_cfg]

/-- A codeword delivered from the empty buffer emits its symbol and leaves the buffer empty: its last bit completes what
the buffer holds. -/
theorem deliverBits_codeword {sym : Symbol} {e : Entry} (he : tabRead s.table sym = some e) :
    (deliverBits e.bits s).sout = s.sout ++ [sym] ∧ (deliverBits e.bits s).mlen = 0 := by
  obtain ⟨hpos, -, -⟩ := h.entriesInRange sym e he
  have hne : e.bits ≠ [] := List.ne_nil_of_length_pos ((bits_length _ _).symm ▸ hpos)
  obtain ⟨p, b, hpb⟩ : ∃ p b, e.bits = p ++ [b] := (List.eq_nil_or_concat' e.bits).resolve_left hne
  obtain ⟨hsout, hbuf, hm⟩ := deliverBits_of_proper_prefix h hpf h0 he ⟨[b], hpb.symm⟩ (by simp [hpb])
  have hlast : deliverBit (deliverBits p s) b = { emitSout sym (deliverBits p s) with mbuf := 0, mlen := 0 } :=
    deliverBit_of_completed (deliverBits_matcherInv h p) (by simpa using hpf.codewordsDistinct) hm (by simpa using he)
      (by rw [hbuf, hpb])
  rw [hpb, deliverBits_append, deliverBits_cons, deliverBits_nil, hlast]
  simp [hsout]

/-- The codewords of a list of symbols, one after another, emit those symbols. -/
theorem deliverBits_flatMap_codewordOf {syms : List Symbol} (hv : ∀ sym ∈ syms, tabRead s.table sym ≠ none) :
    (deliverBits (syms.flatMap (codewordOf s.table)) s).sout = s.sout ++ syms ∧
      (deliverBits (syms.flatMap (codewordOf s.table)) s).mlen = 0 := by
  induction syms generalizing s with
  | nil => simp [h0]
  | cons sym syms ih =>
    rw [List.forall_mem_cons] at hv
    obtain ⟨hsym, hrest⟩ := hv
    obtain ⟨e, he⟩ := Option.ne_none_iff_exists'.mp hsym
    have hcw : codewordOf s.table sym = e.bits := by rw [codewordOf, he]
    obtain ⟨hsout, hmlen⟩ := deliverBits_codeword h hpf h0 he
    have hih := ih (s := deliverBits e.bits s) (deliverBits_matcherInv h _) (by simpa using hpf) hmlen
      (by simpa using hrest)
    rw [deliverBits_table, hsout, List.append_assoc, List.singleton_append] at hih
    rwa [List.flatMap_cons, hcw, deliverBits_append]

end PrefixFreeTable

/-! ### Parses -/

theorem IsParse.cons {t : Table} {x r : List Bool} {syms : List Symbol} (h : IsParse t x syms r) {sym : Symbol}
    {e : Entry} (he : tabRead t sym = some e) : IsParse t (e.bits ++ x) (sym :: syms) r where
  cut := by simp [codewordOf, he, h.cut]
  valid := List.forall_mem_cons.mpr ⟨by simp [he], h.valid⟩
  unmatched := h.unmatched

/-- Every bit sequence has a parse: a codeword at its head is cut off, and what follows is shorter (I9). -/
theorem exists_isParse {c : Config} {t : Table} (hr : EntriesInRange c t) (x : List Bool) :
    ∃ syms r, IsParse t x syms r := by
  by_cases hx : ∃ sym e, tabRead t sym = some e ∧ e.bits <+: x
  · obtain ⟨sym, e, he, y, rfl⟩ := hx
    obtain ⟨hpos, -, -⟩ := hr sym e he
    have hshort : y.length < (e.bits ++ y).length := by simp [Entry.bits]; omega
    obtain ⟨syms, r, hy⟩ := exists_isParse hr y
    exact ⟨sym :: syms, r, hy.cons he⟩
  · exact ⟨[], x, rfl, by simp, fun sym e he hp => hx ⟨sym, e, he, hp⟩⟩
termination_by x.length

/-- Settles O47: the codewords of a parse emit its symbols and leave the buffer empty, and the remainder, at whose head
no codeword stands, then emits nothing and stays in the buffer. -/
theorem greedyDecodeIsTheUniqueParse : Obligations.GreedyDecodeIsTheUniqueParse := by
  intro s x hinv h0 hpf
  refine ⟨exists_isParse hinv.entriesInRange x, fun syms r hparse => ?_⟩
  obtain ⟨hsout, hmlen⟩ := deliverBits_flatMap_codewordOf hinv.matcherInv hpf h0 hparse.valid
  rw [hparse.cut, deliverBits_append]
  generalize hu : deliverBits (syms.flatMap (codewordOf s.table)) s = u at hsout hmlen ⊢
  have hinvu : MatcherInv u := hu ▸ deliverBits_matcherInv hinv.matcherInv _
  have htab : u.table = s.table := hu ▸ deliverBits_table _ s
  have hbuf : buffered u = [] := buffered_eq_nil.mpr hmlen
  obtain ⟨hrest, hleft⟩ := deliverBits_unmatched (bs := r) hinvu (htab ▸ hinv.codewordsDistinct)
    (by simpa [hbuf, htab] using hparse.unmatched)
  have hroom : u.cfg.lmax ≠ 0 := Nat.one_le_iff_ne_zero.mp (lmax_pos _)
  refine ⟨hrest.trans hsout, ?_⟩
  rw [← buffered_eq_nil, hleft, hbuf]
  simp [hroom]

end Sys2Proof.Machine
end

section
/-! PROOF. The match commands (spec/43_match.md R152, R154): the checks in front of both, MBIT as DeliverBit, and MEND
as the terminal check. -/

namespace Sys2Proof.Machine

section MatchCommands
variable {s : State} (hf : s.fault = .noFault)
include hf

/-- In PACK, or with a byte held, a match command raises Sequence (R152, R154). -/
theorem honour_matchCommand_of_not_admitted (h : s.mode = .pack ∨ s.holdV = true) (rule : State → State) :
    honour (requireMode [.idle, .decode] (requireNothingHeld rule)) s = .next (raise .sequence s) := by
  by_cases hp : s.mode = .pack
  · exact honour_requireMode_of_not_mem hf fun hmem => mem_idle_decode.mp hmem hp
  · rw [honour_requireMode_of_mem hf (mem_idle_decode.mpr hp), requireNothingHeld, if_pos (h.resolve_left hp)]

/-- In IDLE or DECODE with no byte held it runs its rule (R152, R154). -/
theorem honour_matchCommand_of_admitted (hm : s.mode ≠ .pack) (hv : s.holdV = false) (rule : State → State) :
    honour (requireMode [.idle, .decode] (requireNothingHeld rule)) s = .next (rule s) := by
  rw [honour_requireMode_of_mem hf (mem_idle_decode.mpr hm), requireNothingHeld, if_neg (by simp [hv])]

/-- MBIT is DeliverBit, with the stream opened (R152). -/
theorem exec_mbit_eq_deliverBit (hm : s.mode ≠ .pack) (hv : s.holdV = false) (bit : Bool) :
    exec (.mbit bit) s = .next { deliverBit s bit with mode := .decode } :=
  (honour_matchCommand_of_admitted hf hm hv _).trans (congrArg _ (deliverBits_withMode [bit] s .decode))

theorem exec_mend_eq_endCheck (hm : s.mode ≠ .pack) (hv : s.holdV = false) : exec .mend s = .next (endCheck s) :=
  honour_matchCommand_of_admitted hf hm hv _

end MatchCommands

@[simp] theorem deliverBits_holdV (bs : List Bool) (s : State) : (deliverBits bs s).holdV = s.holdV := by
  rw [deliverBits_frame]

/-- A run of MBITs delivers its bits (R152). -/
theorem execAll_mbits {s : State} (hf : s.fault = .noFault) (hm : s.mode ≠ .pack) (hv : s.holdV = false)
    {bs : List Bool} (hne : bs ≠ []) :
    execAll (mbits bs) s = .next { deliverBits bs s with mode := .decode } := by
  induction bs generalizing s with
  | nil => exact absurd rfl hne
  | cons b bs ih =>
    rw [mbits, List.map_cons, execAll, exec_mbit_eq_deliverBit hf hm hv b]
    by_cases hbs : bs = []
    · subst hbs; rfl
    · have hf' : (deliverBit s b).fault = .noFault := (deliverBits_fault [b] s).trans hf
      have hv' : (deliverBit s b).holdV = false := (deliverBits_holdV [b] s).trans hv
      have hrest := ih (s := { deliverBit s b with mode := .decode }) hf' (by simp) hv' hbs
      rwa [deliverBits_withMode] at hrest

/-- Settles O43: the checks of MBIT, one bit as DeliverBit, and a byte's bits as a run of MBITs. -/
theorem mbitDeliversOneBit : Obligations.MbitDeliversOneBit := by
  refine fun s bit hf => ⟨fun h => honour_matchCommand_of_not_admitted hf h _,
    fun hm hv => ⟨?_, ?_, fun byte => ?_⟩⟩
  · exact exec_mbit_eq_deliverBit hf hm hv bit
  · exact deliverBit_sout s bit
  · exact execAll_mbits hf hm hv (List.ne_nil_of_length_pos (by simp))

/-- With no byte held MEND and UEND 0 make the same check, in every mode, faulted or not (R154 (b)). -/
theorem exec_mend_eq_exec_uend_zero {s : State} (hv : s.holdV = false) : exec .mend s = exec (.uend 0) s := by
  by_cases hf : s.fault = .noFault
  · by_cases hp : s.mode = .pack
    · rw [exec_uend_of_mode_eq_pack hf hp]
      exact honour_matchCommand_of_not_admitted hf (.inl hp) _
    · rw [exec_mend_eq_endCheck hf hp hv, exec_uend_zero_of_none_held hf hp hv]
  · rw [exec_faulted hf (by simp), exec_faulted hf (by simp)]

/-- Settles O44: MEND beside UEND 0, its checks, and both outcomes of the terminal check. -/
theorem mendEndsBitFedStream : Obligations.MendEndsBitFedStream := by
  refine fun s => ⟨exec_mend_eq_exec_uend_zero, fun hf => ⟨fun h => honour_matchCommand_of_not_admitted hf h _,
    fun hm hv h0 => ?_, fun hm hv h0 => ?_⟩⟩
  · rw [exec_mend_eq_endCheck hf hm hv, endCheck_of_mlen_eq_zero h0]
  · rw [exec_mend_eq_endCheck hf hm hv, endCheck_of_mlen_ne_zero h0]
    rfl

end Sys2Proof.Machine
end

section
/-! PROOF. The faults (spec/60_exceptions.md R200, R208 to R212): which fault a command raises under which condition,
the state each fault leaves, and the refusal of a faulted block. A command faults only under a condition of the table,
and under each condition it leaves one known state; exactness and precision both follow from these two facts. -/

namespace Sys2Proof.Machine

/-! ### The faulted block -/

/-- A faulted block refuses every word but SRST's, the illegal ones too (R211). -/
theorem executeWord_faulted {s : State} {w : CmdWord} (hf : s.fault ≠ .noFault) (hw : opField w ≠ 0x01#8) :
    executeWord w s = .next s := by
  by_cases hop : opField w ∈ opcodes
  · obtain ⟨i, hi⟩ := exists_opcode_eq hop
    have hsrst : i.operandsFrom s.cfg w ≠ .srst := fun h =>
      hw (opcode_of_decode ((decode_of_opField_eq hi.symm s.cfg).trans (congrArg _ h))).symm
    rw [executeWord_of_opField_eq hi.symm, exec_faulted hf hsrst]
  · rw [executeWord_of_not_mem_opcodes hop, if_neg hf]

/-- Settles O16: the refusal of a faulted block, said of words. -/
theorem faultedBlockRefusesAllButSrst : Obligations.FaultedBlockRefusesAllButSrst :=
  fun _ _ => executeWord_faulted

/-- A step whose next event is a word takes the word off and executes it (R61). -/
theorem step_command {s : State} {w : CmdWord} {rest : List HostEvent} (h : s.pending = .command w :: rest) :
    step s = executeWord w { s with pending := rest } := by
  rw [step, takeEvent, h]

/-- With nothing presented a step holds the state (R225). -/
theorem step_of_pending_eq_nil {s : State} (h : s.pending = []) : step s = .next s := by
  rw [step, takeEvent, h]

/-- Settles O19: by the next event. Hardware reset and SRST are `resetBlock`; a faulted block refuses any other word. -/
theorem onlyResetLeavesTheFaultedState : Obligations.OnlyResetLeavesTheFaultedState := by
  intro s t hf h
  cases hp : s.pending with
  | nil =>
    cases (step_of_pending_eq_nil hp).symm.trans h
    exact ⟨by simp, fun _ => by rw [List.tail_nil, ← hp]⟩
  | cons event rest =>
    cases event with
    | hardwareReset =>
      cases (step_hardwareReset hp).symm.trans h
      exact ⟨fun _ => by simp, fun hno => absurd (.inl rfl) hno⟩
    | command w =>
      rw [step_command hp] at h
      by_cases hw : opField w = 0x01#8
      · cases (executeWord_of_opField_eq (i := .srst) hw _).symm.trans h
        exact ⟨fun _ => by simp, fun hno => absurd (.inr ⟨w, rfl, hw⟩) hno⟩
      · cases (executeWord_faulted (s := { s with pending := rest }) hf hw).symm.trans h
        exact ⟨fun hreset => absurd hreset (by simp [hw]), fun _ => rfl⟩

/-! ### The table of faults -/

/-- The bits UEND delivers before its terminal check: all but the last `pad` of the held byte, if one is held (R134). -/
def finalBits (pad : Byte) (s : State) : List Bool := if s.holdV then bits (8 - pad.toNat) s.hold else []

/-- The condition under which a command of a block that is not faulted raises each code, the checks before it in the
order of R208 passed (R200). -/
inductive Raises (s : State) (i : Instr) : FaultCode → Prop
  /-- MODE does not admit the command, or a match command finds a byte held. -/
  | sequence (h : s.mode ∉ admittedModes i ∨ ((i = .mend ∨ ∃ b, i = .mbit b) ∧ s.holdV = true)) :
    Raises s i .sequence
  /-- The length of a TSET or PUTCW is 0 or above LMAX. -/
  | badLength (h : ∃ (len : Byte) (cw : Codeword),
      ((∃ sym, i = .tset sym len cw) ∧ s.mode = .idle ∨ i = .putcw len cw ∧ s.mode ≠ .decode) ∧
      (len = 0 ∨ s.cfg.lmax < len.toNat)) : Raises s i .badLength
  /-- Another symbol holds the codeword of a TSET. -/
  | duplicateCodeword (h : ∃ (sym : Symbol) (len : Byte) (cw : Codeword),
      i = .tset sym len cw ∧ s.mode = .idle ∧ len ≠ 0 ∧ len.toNat ≤ s.cfg.lmax ∧
      ∃ other, other ≠ sym ∧
        tabRead s.table other = some { tlen := len, tcw := BitVec.ofNat 255 (cw.toNat % 2 ^ len.toNat) }) :
    Raises s i .duplicateCodeword
  /-- The symbol of a PUTSYM has no valid entry. -/
  | unknownSymbol (h : ∃ sym, i = .putsym sym ∧ s.mode ≠ .decode ∧ s.tv sym = false) : Raises s i .unknownSymbol
  /-- The padding count of a UEND is above 7, or not 0 with no byte held. -/
  | badPadding (h : ∃ pad : Byte, i = .uend pad ∧ s.mode ≠ .pack ∧
      (7 < pad.toNat ∨ (pad ≠ 0 ∧ s.holdV = false))) : Raises s i .badPadding
  /-- Bits are left in the matcher at the end of the stream. -/
  | unknownCodeword (h :
      (∃ pad : Byte, i = .uend pad ∧ s.mode ≠ .pack ∧ pad.toNat ≤ 7 ∧ (pad = 0 ∨ s.holdV = true) ∧
        (deliverBits (finalBits pad s) s).mlen ≠ 0) ∨
      (i = .mend ∧ s.mode ≠ .pack ∧ s.holdV = false ∧ s.mlen ≠ 0)) : Raises s i .unknownCodeword

/-! ### The final release -/

theorem releaseFinal_mlen (pad : Byte) (s : State) :
    (releaseFinal pad s).mlen = (deliverBits (finalBits pad s) s).mlen := by
  cases hv : s.holdV with
  | true => rw [releaseFinal_held hv, finalBits, if_pos hv]
  | false => rw [releaseFinal_none hv, finalBits, if_neg (by simp [hv])]; rfl

theorem releaseFinal_fault (pad : Byte) (s : State) : (releaseFinal pad s).fault = s.fault := by
  cases hv : s.holdV with
  | true => rw [releaseFinal_held hv]; exact deliverBits_fault _ s
  | false => rw [releaseFinal_none hv]

/-- Where an unheld `hold` is 0 (I4), the final release is the deliveries, with nothing held after them (R134). -/
theorem releaseFinal_eq_deliverBits {s : State} (hclear : s.holdV = false → s.hold = 0) (pad : Byte) :
    releaseFinal pad s = { deliverBits (finalBits pad s) s with hold := 0, holdV := false } := by
  cases hv : s.holdV with
  | true => rw [releaseFinal_held hv, finalBits, if_pos hv]
  | false => rw [releaseFinal_none hv, finalBits, if_neg (by simp [hv]), deliverBits_nil, ← hclear hv, ← hv]

/-! ### A fault only under a condition of the table -/

/-- The state a command leaves records no fault, or one whose condition held. -/
def FaultTabled (s : State) (i : Instr) (t : State) : Prop := t.fault = .noFault ∨ Raises s i t.fault

/-- MBIT and MEND while a byte is held: Sequence (R152, R154). -/
theorem requireNothingHeld_faultTabled {s : State} {i : Instr} {rule : State → State}
    (hi : i = .mend ∨ ∃ b, i = .mbit b) (hr : s.holdV = false → FaultTabled s i (rule s)) :
    FaultTabled s i (requireNothingHeld rule s) := by
  unfold requireNothingHeld
  cases hv : s.holdV with
  | true => exact .inr (.sequence (.inr ⟨hi, hv⟩))
  | false => exact hr hv

section NotFaulted
variable {s : State} (hf : s.fault = .noFault)
include hf

/-- The frame of R90 and R91: a command's rule decides its fault, in a mode that admits it. -/
theorem faultTabled_requireMode {i : Instr} {rule : State → State}
    (hr : s.mode ∈ admittedModes i → FaultTabled s i (rule s)) :
    FaultTabled s i (if s.fault = .noFault then
      (if s.mode ∈ admittedModes i then rule s else raise .sequence s) else s) := by
  rw [if_pos hf]
  by_cases hm : s.mode ∈ admittedModes i
  · rw [if_pos hm]; exact hr hm
  · rw [if_neg hm]; exact .inr (.sequence (.inl hm))

theorem tsetRule_faultTabled {sym : Symbol} {len : Byte} {cw : Codeword} (hm : s.mode = .idle) :
    FaultTabled s (.tset sym len cw) (tsetRule sym len cw s) := by
  rcases tsetRule_cases sym len cw s with ⟨hlen, h⟩ | ⟨hlen, hheld, h⟩ | ⟨_, _, h⟩ <;> rw [h]
  · exact .inr (.badLength ⟨len, cw, .inl ⟨⟨sym, rfl⟩, hm⟩, lengthOk_false.mp hlen⟩)
  · obtain ⟨hpos, hmax⟩ := lengthOk_iff.mp hlen
    have hne : len ≠ 0 := by rintro rfl; simp at hpos
    exact .inr (.duplicateCodeword
      ⟨sym, len, cw, rfl, hm, hne, hmax, codewordOperand_eq len cw ▸ heldByAnother_true hheld⟩)
  · exact .inl hf

theorem appendCodeword_faultTabled (i : Instr) (bs : List Bool) : FaultTabled s i (appendCodeword bs s) :=
  .inl ((packBits_fault bs _).trans hf)

theorem putcwRule_faultTabled {len : Byte} {cw : Codeword} (hm : s.mode ≠ .decode) :
    FaultTabled s (.putcw len cw) (putcwRule len cw s) := by
  rcases putcwRule_cases len cw s with ⟨hlen, h⟩ | ⟨_, h⟩ <;> rw [h]
  · exact .inr (.badLength ⟨len, cw, .inr ⟨rfl, hm⟩, lengthOk_false.mp hlen⟩)
  · exact appendCodeword_faultTabled hf _ _

theorem putsymRule_faultTabled {sym : Symbol} (hm : s.mode ≠ .decode) :
    FaultTabled s (.putsym sym) (putsymRule sym s) := by
  rcases putsymRule_cases sym s with ⟨hnone, h⟩ | ⟨e, _, h⟩ <;> rw [h]
  · exact .inr (.unknownSymbol ⟨sym, rfl, hm, by rw [tv_eq, hnone]; rfl⟩)
  · exact appendCodeword_faultTabled hf _ _

theorem pflushRule_faultTabled : FaultTabled s .pflush (pflushRule s) := by
  obtain ⟨items, h, _⟩ := pflushRule_frame s
  rw [h]
  exact .inl hf

theorem ubyteRule_faultTabled {b : Byte} : FaultTabled s (.ubyte b) (ubyteRule b s) := by
  cases hv : s.holdV with
  | true => rw [ubyteRule_held hv]; exact .inl ((deliverBits_fault _ s).trans hf)
  | false => rw [ubyteRule_none hv]; exact .inl hf

theorem uendRule_faultTabled {pad : Byte} (hm : s.mode ≠ .pack) :
    FaultTabled s (.uend pad) (uendRule pad s) := by
  rcases uendRule_cases pad s with ⟨hbad, h⟩ | ⟨hle, hheld, h⟩ <;> rw [h]
  · exact .inr (.badPadding ⟨pad, rfl, hm, hbad.imp_right And.symm⟩)
  · rcases endCheck_cases (releaseFinal pad s) with ⟨_, hend⟩ | ⟨hlen, hend⟩ <;> rw [hend]
    · exact .inl ((releaseFinal_fault pad s).trans hf)
    · rw [releaseFinal_mlen] at hlen
      exact .inr (.unknownCodeword (.inl ⟨pad, rfl, hm, hle, hheld.symm, hlen⟩))

theorem mbit_faultTabled (bit : Bool) :
    FaultTabled s (.mbit bit) (deliverBit { s with mode := .decode } bit) :=
  .inl ((deliverBits_fault [bit] _).trans hf)

theorem mend_faultTabled (hm : s.mode ≠ .pack) (hv : s.holdV = false) : FaultTabled s .mend (endCheck s) := by
  rcases endCheck_cases s with ⟨_, h⟩ | ⟨hlen, h⟩ <;> rw [h]
  · exact .inl hf
  · exact .inr (.unknownCodeword (.inr ⟨rfl, hm, hv, hlen⟩))

/-- Every command faults by the table or not at all. -/
theorem exec_faultTabled {i : Instr} {t : State} (h : exec i s = .next t) : FaultTabled s i t := by
  cases i with
  | nop =>
    cases (exec_nop s).symm.trans h
    exact .inl hf
  | srst =>
    cases (exec_srst s).symm.trans h
    exact .inl rfl
  | tclr =>
    cases (exec_tclr s).symm.trans h
    exact faultTabled_requireMode (rule := fun s => { s with table := tabEmpty }) hf fun _ => .inl hf
  | tset sym len cw =>
    cases (exec_tset sym len cw s).symm.trans h
    exact faultTabled_requireMode hf fun hm => tsetRule_faultTabled hf (List.mem_singleton.mp hm)
  | putcw len cw =>
    cases (exec_putcw len cw s).symm.trans h
    exact faultTabled_requireMode hf fun hm => putcwRule_faultTabled hf (mem_idle_pack.mp hm)
  | putsym sym =>
    cases (exec_putsym sym s).symm.trans h
    exact faultTabled_requireMode hf fun hm => putsymRule_faultTabled hf (mem_idle_pack.mp hm)
  | pflush =>
    cases (exec_pflush s).symm.trans h
    exact faultTabled_requireMode hf fun _ => pflushRule_faultTabled hf
  | ubyte b =>
    cases (exec_ubyte b s).symm.trans h
    exact faultTabled_requireMode hf fun _ => ubyteRule_faultTabled hf
  | uend pad =>
    cases (exec_uend pad s).symm.trans h
    exact faultTabled_requireMode hf fun hm => uendRule_faultTabled hf (mem_idle_decode.mp hm)
  | mbit bit =>
    cases (exec_mbit bit s).symm.trans h
    exact faultTabled_requireMode hf fun _ =>
      requireNothingHeld_faultTabled (.inr ⟨bit, rfl⟩) fun _ => mbit_faultTabled hf bit
  | mend =>
    cases (exec_mend s).symm.trans h
    exact faultTabled_requireMode hf fun hm =>
      requireNothingHeld_faultTabled (.inl rfl) fun hv => mend_faultTabled hf (mem_idle_decode.mp hm) hv

/-! ### The state a condition of the table leads to -/

/-- A command in a mode that does not admit it raises Sequence (R202). -/
theorem exec_of_not_admitted {i : Instr} (hm : s.mode ∉ admittedModes i) :
    exec i s = .next (raise .sequence s) := by
  cases i with
  | nop | srst => exact absurd (by cases s.mode <;> decide) hm
  | _ => exact honour_requireMode_of_not_mem hf hm

/-- PUTCW of a length that is not admitted raises BadLength (R112). -/
theorem exec_putcw_of_badLength {len : Byte} (hm : s.mode ≠ .decode) (hlen : lengthOk s.cfg len = false)
    (cw : Codeword) : exec (.putcw len cw) s = .next (raise .badLength s) := by
  have hrule : exec (.putcw len cw) s = .next (putcwRule len cw s) :=
    honour_requireMode_of_mem hf (mem_idle_pack.mpr hm)
  rw [hrule, putcwRule, hlen]
  rfl

/-- Codes 1 to 6: the condition of a code makes the command record it and do nothing else (R210). -/
theorem exec_of_raises {i : Instr} {f : FaultCode} (hd : CodewordsDistinct s.table) (h : Raises s i f)
    (hu : f ≠ .unknownCodeword) : exec i s = .next (raise f s) := by
  cases h with
  | sequence h =>
    obtain hm | ⟨rfl | ⟨b, rfl⟩, hv⟩ := h
    · exact exec_of_not_admitted hf hm
    · exact honour_matchCommand_of_not_admitted hf (.inr hv) _
    · exact honour_matchCommand_of_not_admitted hf (.inr hv) _
  | badLength h =>
    obtain ⟨len, cw, ⟨⟨sym, rfl⟩, hm⟩ | ⟨rfl, hm⟩, hlen⟩ := h
    · obtain ⟨-, hbad, -⟩ := tsetWritesItsEntryOrFaults s sym len cw hf hd
      exact hbad hm hlen
    · exact exec_putcw_of_badLength hf hm (lengthOk_false.mpr hlen) cw
  | duplicateCodeword h =>
    obtain ⟨sym, len, cw, rfl, hm, hne, hmax, hother⟩ := h
    have hpos : 1 ≤ len.toNat := Nat.one_le_iff_ne_zero.mpr fun h0 => hne (BitVec.eq_of_toNat_eq h0)
    obtain ⟨-, -, hdup, -⟩ := tsetWritesItsEntryOrFaults s sym len cw hf hd
    exact hdup hm hpos hmax hother
  | unknownSymbol h =>
    obtain ⟨sym, rfl, hm, htv⟩ := h
    exact exec_putsym_of_tabRead_none hf hm (by simpa [tv_eq] using htv)
  | badPadding h =>
    obtain ⟨pad, rfl, hm, hbad⟩ := h
    exact exec_uend_of_badPadding hf hm (hbad.imp_right And.symm)
  | unknownCodeword => exact absurd rfl hu

/-- Code 7: the state is that after the final release of a UEND, or as it was before a MEND (R210). -/
theorem exec_of_raises_unknownCodeword {i : Instr} (h : Raises s i .unknownCodeword) :
    (∃ pad, i = .uend pad ∧ exec i s = .next (raise .unknownCodeword (releaseFinal pad s))) ∨
      (i = .mend ∧ s.holdV = false ∧ exec i s = .next (raise .unknownCodeword s)) := by
  cases h with
  | unknownCodeword h =>
    obtain ⟨pad, rfl, hm, hle, hheld, hlen⟩ | ⟨rfl, hm, hv, hlen⟩ := h
    · rw [← releaseFinal_mlen] at hlen
      exact .inl ⟨pad, rfl, by
        rw [exec_uend_of_admittedPadding hf hm hle hheld.symm, endCheck_of_mlen_ne_zero hlen]⟩
    · exact .inr ⟨rfl, hv, by rw [exec_mend_eq_endCheck hf hm hv, endCheck_of_mlen_ne_zero hlen]⟩

/-- A command records a code exactly under the code's condition. -/
theorem fault_eq_iff_raises {i : Instr} {t : State} (hd : CodewordsDistinct s.table) (h : exec i s = .next t)
    {f : FaultCode} (hne : f ≠ .noFault) : t.fault = f ↔ Raises s i f := by
  constructor
  · rintro rfl
    exact (exec_faultTabled hf h).resolve_left hne
  · intro hr
    by_cases hu : f = .unknownCodeword
    · subst hu
      rcases exec_of_raises_unknownCodeword hf hr with ⟨pad, -, hexec⟩ | ⟨-, -, hexec⟩ <;>
        (cases hexec.symm.trans h; rfl)
    · cases (exec_of_raises hf hd hr hu).symm.trans h
      rfl

/-- A word of the eleven opcodes does not raise IllegalCommand (R201). -/
theorem exec_fault_ne_illegalCommand {i : Instr} {t : State} (h : exec i s = .next t) :
    t.fault ≠ .illegalCommand := by
  intro hill
  rcases exec_faultTabled hf h with hno | hr
  · cases hill.symm.trans hno
  · rw [hill] at hr
    cases hr

/-- IllegalCommand is recorded for the words of no command, and for them only (R201). -/
theorem executeWord_fault_eq_illegalCommand_iff {w : CmdWord} {t : State} (h : executeWord w s = .next t) :
    t.fault = .illegalCommand ↔ opField w ∉ opcodes := by
  by_cases hop : opField w ∈ opcodes
  · obtain ⟨i, hi⟩ := exists_opcode_eq hop
    rw [executeWord_of_opField_eq hi.symm] at h
    exact iff_of_false (exec_fault_ne_illegalCommand hf h) (not_not_intro hop)
  · rw [executeWord_of_not_mem_opcodes hop, if_pos hf] at h
    cases h
    exact iff_of_true rfl hop

end NotFaulted

/-- Settles O17: each code exactly under its condition, which the constructor of `Raises` for the code holds. -/
theorem commandsFaultExactlyAsTabled : Obligations.CommandsFaultExactlyAsTabled := by
  refine ⟨by simp [FaultCode.code], fun _ _ => executeWord_faulted,
    fun _ _ _ hf h => executeWord_fault_eq_illegalCommand_iff hf h, fun i s t hd hf h => ?_⟩
  have hiff {f : FaultCode} (hne : f ≠ .noFault) : t.fault = f ↔ Raises s i f := fault_eq_iff_raises hf hd h hne
  refine ⟨exec_fault_ne_illegalCommand hf h, ?_,
    (hiff (by decide)).trans ⟨fun | .badLength hc => hc, .badLength⟩,
    (hiff (by decide)).trans ⟨fun | .duplicateCodeword hc => hc, .duplicateCodeword⟩,
    (hiff (by decide)).trans ⟨fun | .unknownSymbol hc => hc, .unknownSymbol⟩,
    (hiff (by decide)).trans ⟨fun | .badPadding hc => hc, .badPadding⟩,
    (hiff (by decide)).trans ⟨fun | .unknownCodeword hc => hc, .unknownCodeword⟩⟩
  simp only [← or_assoc]
  rw [or_assoc (a := isTableCommand i = true ∧ _), ← not_mem_admittedModes]
  exact (hiff (by decide)).trans ⟨fun | .sequence hc => hc, .sequence⟩

/-! ### Precision -/

@[simp] theorem deliverBits_bout (bs : List Bool) (s : State) : (deliverBits bs s).bout = s.bout := by
  rw [deliverBits_frame]

/-- A command that faults leaves the state before it but for FAULT, or is a UEND and leaves the state after its
deliveries (R210). -/
theorem eq_of_exec_fault {i : Instr} {s t : State} (hinv : Inv s) (hf : s.fault = .noFault)
    (h : exec i s = .next t) (hne : t.fault ≠ .noFault) :
    (∃ f, t = raise f s ∧ (f = .unknownCodeword → i = .mend ∧ s.holdV = false)) ∨
      ∃ pad, i = .uend pad ∧
        t = raise .unknownCodeword { deliverBits (finalBits pad s) s with hold := 0, holdV := false } := by
  have hr : Raises s i t.fault := (exec_faultTabled hf h).resolve_left hne
  by_cases hu : t.fault = .unknownCodeword
  · rw [hu] at hr
    rcases exec_of_raises_unknownCodeword hf hr with ⟨pad, rfl, hexec⟩ | ⟨rfl, hv, hexec⟩ <;>
      cases h.symm.trans hexec
    · exact .inr ⟨pad, rfl, by rw [releaseFinal_eq_deliverBits hinv.holdClear]⟩
    · exact .inl ⟨_, rfl, fun _ => ⟨rfl, hv⟩⟩
  · have hexec : exec i s = .next (raise t.fault s) := exec_of_raises hf hinv.codewordsDistinct hr hu
    exact .inl ⟨_, by injection h.symm.trans hexec, fun hu' => absurd hu' hu⟩

/-- Settles O18: the two forms of the state a fault leaves; the deliveries of a UEND append symbols only, and MODE is
DECODE by the transitions of R31. -/
theorem faultsArePrecise : Obligations.FaultsArePrecise := by
  intro w s t hinv hf h hne
  by_cases hop : opField w ∈ opcodes
  · obtain ⟨hcommand, -⟩ := opcodeAloneSelectsCommand s.cfg w
    obtain ⟨i, hdec, -, -⟩ := hcommand hop
    rw [executeWord, hdec] at h
    have hmode (hu : t.fault = .unknownCodeword) : t.mode = .decode := by
      obtain ⟨-, -, ht⟩ := (exec_modeOutcome hinv hf h).of_unknownCodeword hu
      exact ht
    rcases eq_of_exec_fault hinv hf h hne with ⟨f, rfl, hmend⟩ | ⟨pad, rfl, rfl⟩
    · refine ⟨List.prefix_rfl, List.prefix_rfl, fun _ => rfl, fun hu => ?_⟩
      obtain ⟨rfl, hv⟩ := hmend hu
      exact ⟨hv, hmode hu, .inl ⟨hdec, congrArg (raise · s) hu⟩⟩
    · obtain ⟨syms, hsout, -⟩ := deliverBits_sout (finalBits pad s) s
      exact ⟨by simp, ⟨syms, hsout.symm⟩, fun hu => absurd rfl hu,
        fun _ => ⟨rfl, hmode rfl, .inr ⟨pad, hdec, rfl⟩⟩⟩
  · rw [executeWord_of_not_mem_opcodes hop, if_pos hf] at h
    cases h
    exact ⟨List.prefix_rfl, List.prefix_rfl, fun _ => rfl, fun hu => by cases hu⟩

end Sys2Proof.Machine
end

section
/-! PROOF. Encoding and decoding (spec/30_encoding.md R70, R72, R79, R81): the decoder takes the command of the opcode
and its operands back out of the encoded word, and the word fits the port when the codeword value does. -/

namespace Sys2Proof

/-- The word of a command carries the command's opcode (R72, R79). -/
@[simp] theorem opField_encode (i : Instr) : opField (encode i) = i.opcode := by
  cases i <;> exact opField_assemble _ _ _ _

theorem codewordFits_iff {c : Config} {cw : Codeword} : codewordFits c cw = true ↔ cw.toNat < 2 ^ c.lmax :=
  decide_eq_true_iff

/-- The operands of a well-formed command are the fields of its word (R71, R77). -/
theorem operandsFrom_encode {c : Config} {i : Instr} (h : i.wf c = true) : i.operandsFrom c (encode i) = i := by
  have hcw {cw : Codeword} (hfits : codewordFits c cw = true) : cw &&& mask c.lmax = cw :=
    and_mask_of_lt c.lmax_le_255 (codewordFits_iff.mp hfits)
  cases i with
  | nop | srst | tclr | pflush | mend => rfl
  | tset sym len cw => simp [Instr.operandsFrom, encode, hcw h]
  | putcw len cw => simp [Instr.operandsFrom, encode, hcw h]
  | putsym _ | ubyte _ | uend _ => simp [Instr.operandsFrom, encode]
  | mbit bit => cases bit <;> simp [Instr.operandsFrom, encode]

/-- Settles O1: the opcode of the encoded word picks the command, its fields give the operands back. -/
theorem decodeEncodeRoundTrip : Obligations.DecodeEncodeRoundTrip := by
  intro c i h
  rw [decode_of_opField_eq (opField_encode i), operandsFrom_encode h]

/-- An assembled word fits the port exactly when its codeword value fits the `CW` field: the other fields lie below
(R70). -/
theorem fits_assemble (c : Config) (op len a : Byte) (cw : Codeword) :
    CmdWord.fits c (assemble op len a cw) = codewordFits c cw := by
  have hop := op.isLt
  have hlen := len.isLt
  have ha := a.isLt
  rw [CmdWord.fits, codewordFits, assemble_toNat, Config.cmdw, Nat.pow_add, decide_eq_decide]
  omega

/-- A command without a codeword value is assembled with the value 0, which fits every block. -/
theorem codewordFits_zero (c : Config) : codewordFits c 0 = true := codewordFits_iff.mpr (Nat.two_pow_pos _)

/-- Settles O2: of the four fields of a word only `CW` can exceed the port. -/
theorem encodedWordFitsPortWhenWellFormed : Obligations.EncodedWordFitsPortWhenWellFormed := by
  intro c i
  cases i with
  | tset | putcw => exact fits_assemble _ _ _ _ _
  | _ => exact (fits_assemble _ _ _ _ _).trans (codewordFits_zero c)

/-- Settles O6: each word is the encoding of its command, so it decodes to it. -/
theorem workedEncodingsDecode : Obligations.WorkedEncodingsDecode := by
  intro p hp
  have h : p.2.wf Config.default = true ∧ encode p.2 = p.1 := by
    revert p
    decide
  obtain ⟨hwf, henc⟩ := h
  exact ⟨henc ▸ decodeEncodeRoundTrip _ _ hwf, henc⟩

end Sys2Proof
end

section
/-! PROOF. What a command can do, said once, and what follows from it for every step (spec/40_system_table.md R90;
spec/10_state.md R20, column "written by"; spec/70_reset_and_hazards.md R247). -/

namespace Sys2Proof.Machine

/-! ### One inversion lemma for every command -/

/-- What a command can do to a state: nothing, a fault before any effect, or its rule under the checks that let the rule
run. -/
inductive Effect (s : State) : Instr → State → Prop
  /-- NOP, or a command of a faulted block (R92, R211). -/
  | unchanged {i : Instr} (h : i = .nop ∨ s.fault ≠ .noFault) : Effect s i s
  /-- A check failed: FAULT is written, and nothing else (R210). -/
  | faulted {i : Instr} {f : FaultCode} (hne : f ≠ .noFault) : Effect s i (raise f s)
  | reset : Effect s .srst (resetBlock s)
  | cleared (hf : s.fault = .noFault) (hm : s.mode = .idle) : Effect s .tclr { s with table := tabEmpty }
  | written {sym : Symbol} {len : Byte} {cw : Codeword} (hf : s.fault = .noFault) (hm : s.mode = .idle)
      (hlen : lengthOk s.cfg len = true) (hfree : heldByAnother s.table sym (codewordOperand len cw) = false) :
    Effect s (.tset sym len cw) { s with table := tabWrite s.table sym (codewordOperand len cw) }
  | appended {i : Instr} (hi : isPackCommand i = true) (hm : s.mode ≠ .decode)
      (hok : PacksWithoutFault s.cfg s.table i) : Effect s i (appendCodeword (packedBits s.table i) s)
  | flushed (hm : s.mode ≠ .decode) : Effect s .pflush (pflushRule s)
  | held {b : Byte} (hm : s.mode ≠ .pack) : Effect s (.ubyte b) (ubyteRule b s)
  | released {pad : Byte} (hm : s.mode ≠ .pack) : Effect s (.uend pad) (endCheck (releaseFinal pad s))
  | delivered {bit : Bool} (hm : s.mode ≠ .pack) (hv : s.holdV = false) :
    Effect s (.mbit bit) (deliverBit { s with mode := .decode } bit)
  | ended (hm : s.mode ≠ .pack) (hv : s.holdV = false) : Effect s .mend (endCheck s)

section Rules
variable {s : State}

/-- The frame of R90 and R91: a command's effect is that of its rule, in a mode that admits it. -/
theorem effect_requireMode {i : Instr} {rule : State → State}
    (hr : s.fault = .noFault → s.mode ∈ admittedModes i → Effect s i (rule s)) :
    Effect s i (if s.fault = .noFault then
      (if s.mode ∈ admittedModes i then rule s else raise .sequence s) else s) := by
  split
  · next hf =>
    split
    · next hm => exact hr hf hm
    · exact .faulted (by decide)
  · next hf => exact .unchanged (.inr hf)

theorem tsetRule_effect {sym : Symbol} {len : Byte} {cw : Codeword} (hf : s.fault = .noFault) (hm : s.mode = .idle) :
    Effect s (.tset sym len cw) (tsetRule sym len cw s) := by
  rcases tsetRule_cases sym len cw s with ⟨-, h⟩ | ⟨-, -, h⟩ | ⟨hlen, hfree, h⟩ <;> rw [h]
  · exact .faulted (by decide)
  · exact .faulted (by decide)
  · exact .written hf hm hlen hfree

theorem putcwRule_effect {len : Byte} {cw : Codeword} (hm : s.mode ≠ .decode) :
    Effect s (.putcw len cw) (putcwRule len cw s) := by
  rcases putcwRule_cases len cw s with ⟨-, h⟩ | ⟨hlen, h⟩ <;> rw [h]
  · exact .faulted (by decide)
  · exact .appended (i := .putcw len cw) rfl hm (lengthOk_iff.mp hlen)

theorem putsymRule_effect {sym : Symbol} (hm : s.mode ≠ .decode) : Effect s (.putsym sym) (putsymRule sym s) := by
  rcases putsymRule_cases sym s with ⟨-, h⟩ | ⟨e, he, h⟩ <;> rw [h]
  · exact .faulted (by decide)
  · have hbits : packedBits s.table (.putsym sym) = e.bits := by rw [packedBits, codewordOf, he]
    exact hbits ▸ .appended (i := .putsym sym) rfl hm (by simp [PacksWithoutFault, he])

theorem uendRule_effect {pad : Byte} (hm : s.mode ≠ .pack) : Effect s (.uend pad) (uendRule pad s) := by
  rcases uendRule_cases pad s with ⟨-, h⟩ | ⟨-, -, h⟩ <;> rw [h]
  · exact .faulted (by decide)
  · exact .released hm

theorem requireNothingHeld_effect {i : Instr} {rule : State → State}
    (hr : s.holdV = false → Effect s i (rule s)) : Effect s i (requireNothingHeld rule s) := by
  unfold requireNothingHeld
  cases hv : s.holdV with
  | true => exact .faulted (by decide)
  | false => exact hr hv

end Rules

/-- The inversion lemma: what a command answers is one of its effects. -/
theorem exec_effect {i : Instr} {s t : State} (h : exec i s = .next t) : Effect s i t := by
  cases i with
  | nop =>
    cases (exec_nop s).symm.trans h
    exact .unchanged (.inl rfl)
  | srst =>
    cases (exec_srst s).symm.trans h
    exact .reset
  | tclr =>
    cases (exec_tclr s).symm.trans h
    exact effect_requireMode (rule := fun s => { s with table := tabEmpty })
      fun hf hm => .cleared hf (List.mem_singleton.mp hm)
  | tset sym len cw =>
    cases (exec_tset sym len cw s).symm.trans h
    exact effect_requireMode fun hf hm => tsetRule_effect hf (List.mem_singleton.mp hm)
  | putcw len cw =>
    cases (exec_putcw len cw s).symm.trans h
    exact effect_requireMode fun _ hm => putcwRule_effect (mem_idle_pack.mp hm)
  | putsym sym =>
    cases (exec_putsym sym s).symm.trans h
    exact effect_requireMode fun _ hm => putsymRule_effect (mem_idle_pack.mp hm)
  | pflush =>
    cases (exec_pflush s).symm.trans h
    exact effect_requireMode fun _ hm => .flushed (mem_idle_pack.mp hm)
  | ubyte b =>
    cases (exec_ubyte b s).symm.trans h
    exact effect_requireMode fun _ hm => .held (mem_idle_decode.mp hm)
  | uend pad =>
    cases (exec_uend pad s).symm.trans h
    exact effect_requireMode fun _ hm => uendRule_effect (mem_idle_decode.mp hm)
  | mbit bit =>
    cases (exec_mbit bit s).symm.trans h
    exact effect_requireMode fun _ hm =>
      requireNothingHeld_effect fun hv => .delivered (mem_idle_decode.mp hm) hv
  | mend =>
    cases (exec_mend s).symm.trans h
    exact effect_requireMode fun _ hm => requireNothingHeld_effect fun hv => .ended (mem_idle_decode.mp hm) hv

/-! ### The rules of the decode commands as deliveries -/

/-- UBYTE opens the stream, delivers the held byte, if there is one, and holds the new one (R132). -/
theorem ubyteRule_eq_deliverBits (b : Byte) (s : State) :
    ubyteRule b s = { deliverBits (finalBits 0 s) { s with mode := .decode } with hold := b, holdV := true } := by
  rw [finalBits, deliverBits_withMode]
  cases hv : s.holdV with
  | true => exact ubyteRule_held hv b
  | false => exact ubyteRule_none hv b

/-- The final release delivers all but the filler of the held byte, if there is one, and leaves none held (R134). -/
theorem releaseFinal_frame (pad : Byte) (s : State) :
    ∃ b, releaseFinal pad s = { deliverBits (finalBits pad s) s with hold := b, holdV := false } := by
  cases hv : s.holdV with
  | true => exact ⟨0, by rw [releaseFinal_held hv, finalBits, if_pos hv]⟩
  | false => exact ⟨s.hold, by rw [releaseFinal_none hv, finalBits, if_neg (by simp [hv]), deliverBits_nil, ← hv]⟩

/-- The final release and the terminal check write no more than the deliveries, the held byte, MODE and FAULT. -/
theorem endCheck_releaseFinal_frame (pad : Byte) (s : State) : ∃ b m f, endCheck (releaseFinal pad s) =
    { deliverBits (finalBits pad s) s with hold := b, holdV := false, mode := m, fault := f } := by
  obtain ⟨m, f, hend⟩ := endCheck_frame (releaseFinal pad s)
  obtain ⟨b, hrel⟩ := releaseFinal_frame pad s
  exact ⟨b, m, f, by rw [hend, hrel]⟩

theorem finalBits_length_le (pad : Byte) (s : State) : (finalBits pad s).length ≤ 8 := by
  rw [finalBits]
  split <;> simp

/-! ### The step -/

/-- Settles O7: the step executes the word, which decodes to the command. -/
theorem stepRunsTheDecodedCommand : Obligations.StepRunsTheDecodedCommand := by
  intro s w rest i hp hdec
  rw [step_command hp, executeWord, hdec]

/-- Settles O8: the presented word is the next event, and taking it off gives the state before. -/
theorem presentedWordRunsNext : Obligations.PresentedWordRunsNext :=
  fun s nbits w i hdec => stepRunsTheDecodedCommand (s.withFetchWord nbits w) _ s.pending i rfl hdec

/-- Every step takes the next event off, and then does what some command does or records an illegal word; hardware
reset is SRST, and what changes nothing is NOP (R90, R225, R230). -/
theorem step_cases (s : State) :
    (∃ i, step s = exec i { s with pending := s.pending.tail }) ∨
      step s = .next (raise .illegalCommand { s with pending := s.pending.tail }) := by
  cases hp : s.pending with
  | nil =>
    refine .inl ⟨.nop, ?_⟩
    rw [step_of_pending_eq_nil hp, exec_nop, List.tail_nil, ← hp]
  | cons event rest =>
    cases event with
    | hardwareReset => exact .inl ⟨.srst, step_hardwareReset hp⟩
    | command w =>
      by_cases hw : opField w ∈ opcodes
      · obtain ⟨i, hi⟩ := exists_opcode_eq hw
        exact .inl ⟨_, (step_command hp).trans (executeWord_of_opField_eq hi.symm _)⟩
      · have hill := (step_command hp).trans (executeWord_of_not_mem_opcodes hw _)
        by_cases hf : s.fault = .noFault
        · exact .inr (hill.trans (congrArg _ (if_pos hf)))
        · exact .inl ⟨.nop, hill.trans ((congrArg _ (if_neg hf)).trans (exec_nop _).symm)⟩

/-! ### What a command emits -/

/-- A codeword in range has at most LMAX bits, and so has what a pack command appends (I9, R112, R114). -/
theorem packedBits_length_le {c : Config} {t : Table} (hr : EntriesInRange c t) {i : Instr}
    (hok : PacksWithoutFault c t i) : (packedBits t i).length ≤ c.lmax := by
  cases i with
  | putcw len cw =>
    obtain ⟨-, hmax⟩ := hok
    rwa [packedBits, bits_length]
  | putsym sym =>
    obtain ⟨e, he⟩ := Option.ne_none_iff_exists'.mp hok
    obtain ⟨-, hmax, -⟩ := hr sym e he
    rw [packedBits, codewordOf, he]
    exact (bits_length _ _).trans_le hmax
  | _ => exact Nat.zero_le _

/-- What a command emits: it appends to both traces, at most eight symbols, and at most two items or those of LMAX bits
behind seven waiting ones (R11, R247). -/
theorem exec_output {i : Instr} {s t : State} (h : exec i s = .next t) :
    ∃ (items : List BoutItem) (syms : List Symbol),
      t.bout = s.bout ++ items ∧ t.sout = s.sout ++ syms ∧ syms.length ≤ 8 ∧
      (EntriesInRange s.cfg s.table → items.length ≤ max 2 ((7 + s.cfg.lmax) / 8)) := by
  cases exec_effect h with
  | unchanged | faulted | reset | cleared | written => exact ⟨[], [], by simp⟩
  | appended _ _ hok =>
    obtain ⟨items, heq, hlen⟩ := appendCodeword_frame (packedBits s.table i) s
    refine ⟨items, [], by rw [heq], by rw [heq]; simp, by simp, fun hr => ?_⟩
    have hbits := packedBits_length_le hr hok
    have hcnt := s.cnt.isLt
    rw [hlen]
    omega
  | flushed =>
    obtain ⟨items, heq, hlen⟩ := pflushRule_frame s
    exact ⟨items, [], by rw [heq], by rw [heq]; simp, by simp, fun _ => hlen.trans (le_max_left _ _)⟩
  | held =>
    rw [ubyteRule_eq_deliverBits]
    obtain ⟨syms, hsout, hlen⟩ := deliverBits_sout (finalBits 0 s) { s with mode := .decode }
    exact ⟨[], syms, by simp, hsout, hlen.trans (finalBits_length_le 0 s), by simp⟩
  | @released pad =>
    obtain ⟨b, m, f, heq⟩ := endCheck_releaseFinal_frame pad s
    obtain ⟨syms, hsout, hlen⟩ := deliverBits_sout (finalBits pad s) s
    rw [heq]
    exact ⟨[], syms, by simp, hsout, hlen.trans (finalBits_length_le pad s), by simp⟩
  | @delivered bit =>
    obtain ⟨syms, hsout, hlen⟩ := deliverBits_sout [bit] { s with mode := .decode }
    exact ⟨[], syms, by rw [deliverBit_frame]; simp, hsout, hlen.trans (by simp), by simp⟩
  | ended =>
    obtain ⟨m, f, hend⟩ := endCheck_frame s
    rw [hend]
    exact ⟨[], [], by simp⟩

/-- Settles O12: commands append to both traces, and an illegal word writes neither. -/
theorem outputTracesOnlyGrow : Obligations.OutputTracesOnlyGrow := by
  intro s t h
  rcases step_cases s with ⟨i, hstep⟩ | hstep
  · obtain ⟨items, syms, hbout, hsout, -, -⟩ := exec_output (hstep.symm.trans h)
    exact ⟨⟨items, hbout.symm⟩, ⟨syms, hsout.symm⟩⟩
  · cases hstep.symm.trans h
    exact ⟨List.prefix_rfl, List.prefix_rfl⟩

/-- Settles O13: the lengths of what a command appends. -/
theorem outputOfOneCommandIsBounded : Obligations.OutputOfOneCommandIsBounded := by
  intro i s t hr h
  obtain ⟨items, syms, hbout, hsout, hsyms, hitems⟩ := exec_output h
  rw [hbout, hsout, List.length_append, List.length_append]
  exact ⟨Nat.add_le_add_left (hitems hr) _, Nat.add_le_add_left hsyms _⟩

/-! ### Frames -/

/-- The groups of commands do not overlap (R72). -/
theorem groups_of_isPackCommand {i : Instr} (h : isPackCommand i = true) :
    isTableCommand i = false ∧ isDecodeCommand i = false := by
  cases i with
  | putcw | putsym | pflush => exact ⟨rfl, rfl⟩
  | _ => cases h

/-- Settles O23: a table command has no effect but its write, which TSET makes to its own entry. -/
theorem tableCommandsFrame : Obligations.TableCommandsFrame := by
  intro i s t hi h
  cases exec_effect h with
  | unchanged | faulted => exact ⟨rfl, fun _ _ _ _ _ _ => rfl⟩
  | cleared => exact ⟨rfl, nofun⟩
  | written =>
    refine ⟨rfl, fun sym len cw h other hne => ?_⟩
    cases h
    exact tabRead_tabWrite_other _ _ hne
  | appended hp => cases (groups_of_isPackCommand hp).1.symm.trans hi
  | _ => cases hi

/-- Settles O24: a pack command appends a codeword or flushes. -/
theorem packCommandsFrame : Obligations.PackCommandsFrame := by
  intro i s t hi h
  cases exec_effect h with
  | unchanged | faulted => exact ⟨rfl, List.prefix_rfl, fun _ => rfl⟩
  | appended =>
    obtain ⟨items, heq, -⟩ := appendCodeword_frame (packedBits s.table i) s
    rw [heq]
    exact ⟨rfl, List.prefix_append _ _, fun _ => rfl⟩
  | flushed =>
    obtain ⟨items, heq, -⟩ := pflushRule_frame s
    rw [heq]
    exact ⟨rfl, List.prefix_append _ _, fun _ => rfl⟩
  | _ => cases hi

/-- Settles O25: a decode command delivers bits to the matcher, holds or drops a byte, and makes the terminal check. -/
theorem decodeCommandsFrame : Obligations.DecodeCommandsFrame := by
  intro i s t hi h
  obtain ⟨-, syms, -, hsout, -, -⟩ := exec_output h
  have hgrow : s.sout <+: t.sout := ⟨syms, hsout.symm⟩
  cases exec_effect h with
  | unchanged | faulted => exact ⟨rfl, hgrow, fun _ _ => ⟨rfl, rfl⟩, fun _ => rfl, fun _ => rfl⟩
  | held =>
    rw [ubyteRule_eq_deliverBits, deliverBits_frame] at hgrow ⊢
    exact ⟨rfl, hgrow, nofun, nofun, fun _ => rfl⟩
  | @released pad =>
    obtain ⟨b, m, f, heq⟩ := endCheck_releaseFinal_frame pad s
    rw [heq, deliverBits_frame] at hgrow ⊢
    exact ⟨rfl, hgrow, nofun, nofun, fun _ => rfl⟩
  | delivered =>
    rw [deliverBit_frame] at hgrow ⊢
    exact ⟨rfl, hgrow, fun _ _ => ⟨rfl, rfl⟩, nofun, fun _ => rfl⟩
  | ended =>
    obtain ⟨m, f, heq⟩ := endCheck_frame s
    rw [heq] at hgrow ⊢
    exact ⟨rfl, hgrow, nofun, fun _ => rfl, fun _ => rfl⟩
  | appended hp => cases (groups_of_isPackCommand hp).2.symm.trans hi
  | _ => cases hi

/-- Settles O21: of the effects on the table two are TCLR's and TSET's, and the third is SRST's. -/
theorem onlyTclrTsetAndSrstCommandsChangeTheTable : Obligations.OnlyTclrTsetAndSrstCommandsChangeTheTable := by
  intro i s t h hne
  by_cases hp : isPackCommand i = true
  · obtain ⟨-, -, htab⟩ := packCommandsFrame i s t hp h
    exact absurd (table_ext htab) hne
  by_cases hd : isDecodeCommand i = true
  · obtain ⟨-, -, -, -, htab⟩ := decodeCommandsFrame i s t hd h
    exact absurd (table_ext htab) hne
  cases exec_effect h with
  | unchanged | faulted => exact absurd rfl hne
  | reset => exact .inl rfl
  | cleared hf hm => exact .inr ⟨rfl, hm, hf⟩
  | written hf hm => exact .inr ⟨rfl, hm, hf⟩
  | appended hp' => exact absurd hp' hp
  | flushed => exact absurd rfl hp
  | _ => exact absurd rfl hd

/-! ### What no command writes -/

/-- No command writes the parameter or the events to come (R13, R61). -/
theorem exec_keeps_cfg_pending {i : Instr} {s t : State} (h : exec i s = .next t) :
    t.cfg = s.cfg ∧ t.pending = s.pending := by
  cases i with
  | nop =>
    cases (exec_nop s).symm.trans h
    exact ⟨rfl, rfl⟩
  | srst =>
    cases (exec_srst s).symm.trans h
    exact ⟨rfl, rfl⟩
  | tclr | tset =>
    obtain ⟨heq, -⟩ := tableCommandsFrame _ s t rfl h
    rw [heq]
    exact ⟨rfl, rfl⟩
  | putcw | putsym | pflush =>
    obtain ⟨heq, -⟩ := packCommandsFrame _ s t rfl h
    rw [heq]
    exact ⟨rfl, rfl⟩
  | ubyte | uend | mbit | mend =>
    obtain ⟨heq, -⟩ := decodeCommandsFrame _ s t rfl h
    rw [heq]
    exact ⟨rfl, rfl⟩

/-- Settles O11: what a step answers after taking the event off keeps the other events and the parameter. -/
theorem everyEventIsCompleted : Obligations.EveryEventIsCompleted := by
  intro s
  rcases step_cases s with ⟨i, hstep⟩ | hstep
  · obtain ⟨t, hexec⟩ := exec_next i { s with pending := s.pending.tail }
    obtain ⟨hcfg, hpending⟩ := exec_keeps_cfg_pending hexec
    exact ⟨t, hstep.trans hexec, hpending, hcfg⟩
  · exact ⟨_, hstep, rfl, rfl⟩

/-! ### Repeated commands -/

/-- Writing an entry again changes nothing. -/
theorem tabWrite_tabWrite_same (t : Table) (sym : Symbol) (e : Entry) :
    tabWrite (tabWrite t sym e) sym e = tabWrite t sym e :=
  table_ext fun other => by
    rw [tabRead_tabWrite, tabRead_tabWrite]
    split <;> rfl

/-- TSET's duplicate check passes again after the write, duplicates or not: the search named this symbol before, and the
entry was there, or named none. -/
theorem heldByAnother_tabWrite {t : Table} {sym : Symbol} {e : Entry} (h : heldByAnother t sym e = false) :
    heldByAnother (tabWrite t sym e) sym e = false := by
  cases hl : lookup t e.tlen e.tcw with
  | none =>
    refine heldByAnother_eq_false fun other hne => ?_
    rw [tabRead_tabWrite_other _ _ hne]
    exact lookup_none.mp hl other
  | some other =>
    obtain rfl : other = sym := by simpa [heldByAnother, hl] using h
    have hsame : tabWrite t other e = t := table_ext fun x => by
      rw [tabRead_tabWrite]
      split
      · next hx => rw [hx, lookup_some hl]
      · rfl
    rwa [hsame]

/-- Settles O22: by the command's effect; a write made once is the same write again. -/
theorem repeatedSystemAndTableCommandsChangeNothing : Obligations.RepeatedSystemAndTableCommandsChangeNothing := by
  intro i s t hi h
  cases exec_effect h with
  | unchanged => exact h
  | faulted hne =>
    rcases hi with rfl | rfl | hi
    · exact exec_nop _
    · injection h with hreset
      exact absurd (congrArg State.fault hreset).symm hne
    · exact exec_faulted hne (by rintro rfl; cases hi)
  | reset => rfl
  | cleared hf hm => exact honour_requireMode_of_mem (s := { s with table := tabEmpty }) hf (List.mem_singleton.mpr hm)
  | @written sym len cw hf hm hlen hfree =>
    have hagain : tsetRule sym len cw { s with table := tabWrite s.table sym (codewordOperand len cw) } =
        { s with table := tabWrite s.table sym (codewordOperand len cw) } := by
      rw [tsetRule_of_free (by exact hlen) (heldByAnother_tabWrite hfree), tabWrite_tabWrite_same]
    rw [exec_tset, if_pos hf, if_pos (List.mem_singleton.mpr hm), hagain]
  | @appended i hp =>
    obtain rfl | rfl | hi := hi
    · cases hp
    · cases hp
    · cases (groups_of_isPackCommand hp).1.symm.trans hi
  | _ => simp [isTableCommand] at hi

end Sys2Proof.Machine
end

section
/-! PROOF. The invariants (spec/10_state.md R27): reset has them and every effect of a command keeps them. -/

namespace Sys2Proof.Machine

/-! ### What the modes say of the units -/

/-- Outside DECODE the unpacker and the matcher are empty (I5, I6). -/
theorem Inv.decoder_closed {s : State} (h : Inv s) (hm : s.mode ≠ .decode) :
    s.holdV = false ∧ s.mlen = 0 ∧ s.movf = false := by
  cases hmode : s.mode with
  | idle =>
    obtain ⟨-, -, hclosed⟩ := h.idleClosed hmode
    exact hclosed
  | pack => exact h.packOnly hmode
  | decode => exact absurd hmode hm

/-- Outside PACK the packer is empty (I5, I7). -/
theorem Inv.packer_closed {s : State} (h : Inv s) (hm : s.mode ≠ .pack) : s.cnt = 0 ∧ s.acc = 0 := by
  cases hmode : s.mode with
  | idle =>
    obtain ⟨hcnt, hacc, -⟩ := h.idleClosed hmode
    exact ⟨hcnt, hacc⟩
  | pack => exact absurd hmode hm
  | decode => exact h.decodeOnly hmode

/-! ### Reset and faults -/

/-- The reset values meet the invariants, whatever LMAX is (R230). -/
theorem inv_resetBlock (s : State) : Inv (resetBlock s) where
  accClear := by simp
  mbufClear := by simp
  movfFull := nofun
  holdClear := fun _ => rfl
  idleClosed := by simp
  packOnly := nofun
  decodeOnly := nofun
  entriesInRange := entriesInRange_tabEmpty _
  codewordsDistinct := codewordsDistinct_tabEmpty
  bufferUnmatched := fun h => absurd rfl h
  bufferRoom := fun _ => lmax_pos s.cfg

/-- Settles O14: the state after reset is its own reset. -/
theorem resetMeetsInvariants : Obligations.ResetMeetsInvariants := inv_resetBlock State.reset

/-- No invariant speaks of FAULT. -/
theorem Inv.raise {s : State} (h : Inv s) (f : FaultCode) : Inv (raise f s) := { h with }

/-- No invariant speaks of the events to come. -/
theorem Inv.withPending {s : State} (h : Inv s) (rest : List HostEvent) : Inv { s with pending := rest } := { h with }

/-! ### Table writes -/

theorem Inv.cleared {s : State} (h : Inv s) : Inv { s with table := tabEmpty } :=
  { h with
    entriesInRange := entriesInRange_tabEmpty _
    codewordsDistinct := codewordsDistinct_tabEmpty
    bufferUnmatched := fun _ sym => by simp }

/-- TSET's checks are what I9 and I10 ask of the new entry; the matcher is empty in IDLE (R96). -/
theorem Inv.written {s : State} (h : Inv s) (hm : s.mode = .idle) {sym : Symbol} {len : Byte} {cw : Codeword}
    (hlen : lengthOk s.cfg len = true) (hfree : heldByAnother s.table sym (codewordOperand len cw) = false) :
    Inv { s with table := tabWrite s.table sym (codewordOperand len cw) } := by
  obtain ⟨hpos, hmax⟩ := lengthOk_iff.mp hlen
  obtain ⟨-, -, -, hempty, -⟩ := h.idleClosed hm
  exact { h with
    entriesInRange := entriesInRange_tabWrite h.entriesInRange sym
      ⟨hpos, hmax, and_mask_lt (hmax.trans (lmax_le _)) cw⟩
    codewordsDistinct := codewordsDistinct_tabWrite h.codewordsDistinct sym
      (heldByAnother_false h.codewordsDistinct hfree)
    bufferUnmatched := fun hne => absurd hempty hne }

/-! ### The packer -/

/-- Opening a pack stream and packing bits keeps I1 and writes nothing of the other units (R112). -/
theorem Inv.appended {s : State} (h : Inv s) (hm : s.mode ≠ .decode) (bs : List Bool) :
    Inv (appendCodeword bs s) := by
  have hacc := packBits_accClear (s := { s with mode := .pack }) h.accClear bs
  rw [appendCodeword, packBits_frame] at *
  exact { h with
    accClear := hacc
    idleClosed := nofun
    packOnly := fun _ => h.decoder_closed hm
    decodeOnly := nofun }

theorem Inv.flushed {s : State} (h : Inv s) (hm : s.mode ≠ .decode) : Inv (pflushRule s) := by
  obtain ⟨items, heq, -⟩ := pflushRule_frame s
  rw [heq]
  exact { h with
    accClear := Nat.one_pos
    idleClosed := fun _ => ⟨rfl, rfl, h.decoder_closed hm⟩
    packOnly := nofun
    decodeOnly := nofun }

/-! ### The unpacker and the matcher -/

/-- Opening a decode stream (R132, R152). -/
theorem Inv.opened {s : State} (h : Inv s) (hm : s.mode ≠ .pack) : Inv { s with mode := .decode } :=
  { h with
    idleClosed := nofun
    packOnly := nofun
    decodeOnly := fun _ => h.packer_closed hm }

section OpenStream
variable {s : State} (h : Inv s) (hm : s.mode = .decode)
include h hm

/-- Deliveries in an open decode stream keep the matcher's invariants and write nothing of the other units. -/
theorem Inv.deliverBits (bs : List Bool) : Inv (deliverBits bs s) := by
  have hmatch := deliverBits_matcherInv h.matcherInv bs
  rw [deliverBits_frame] at *
  exact { hmatch, h with
    idleClosed := by simp [hm]
    packOnly := by simp [hm] }

/-- In an open decode stream any byte may be held, and none leaves `hold` 0 (I4). -/
theorem Inv.withHold {b : Byte} {v : Bool} (hclear : v = false → b = 0) : Inv { s with hold := b, holdV := v } :=
  { h with
    holdClear := hclear
    idleClosed := by simp [hm]
    packOnly := by simp [hm] }

end OpenStream

/-- The terminal check: with the buffer empty the stream closes, and IDLE finds every unit empty (I5); else FAULT only
is written. -/
theorem Inv.endCheck {s : State} (h : Inv s) (hm : s.mode ≠ .pack) (hv : s.holdV = false) : Inv (endCheck s) := by
  rcases endCheck_cases s with ⟨hempty, heq⟩ | ⟨-, heq⟩ <;> rw [heq]
  · obtain ⟨hcnt, hacc⟩ := h.packer_closed hm
    have hmovf : s.movf = false := h.matcherInv.movf_eq_false (by rw [hempty]; exact lmax_pos _)
    exact { h with
      idleClosed := fun _ => ⟨hcnt, hacc, hv, hempty, hmovf⟩
      packOnly := nofun
      decodeOnly := nofun }
  · exact h.raise _

/-- The final release: in IDLE nothing is held, in DECODE it is a delivery (R134). -/
theorem Inv.releaseFinal {s : State} (h : Inv s) (hm : s.mode ≠ .pack) (pad : Byte) :
    Inv (releaseFinal pad s) := by
  cases hv : s.holdV with
  | false => rwa [releaseFinal_none hv]
  | true =>
    have hmode : s.mode = .decode := mode_eq_decode h (mem_idle_decode.mpr hm) (.inr hv)
    rw [releaseFinal_held hv]
    exact (h.deliverBits hmode _).withHold (by simpa using hmode) fun _ => rfl

/-! ### Every step -/

/-- Every effect of a command keeps the invariants. -/
theorem Inv.effect {s t : State} {i : Instr} (h : Inv s) (he : Effect s i t) : Inv t := by
  cases he with
  | unchanged => exact h
  | faulted => exact h.raise _
  | reset => exact inv_resetBlock s
  | cleared => exact h.cleared
  | written _ hm hlen hfree => exact h.written hm hlen hfree
  | appended _ hm => exact h.appended hm _
  | flushed hm => exact h.flushed hm
  | held hm =>
    rw [ubyteRule_eq_deliverBits]
    exact ((h.opened hm).deliverBits rfl _).withHold (by simp) nofun
  | @released pad hm =>
    obtain ⟨b, hrel⟩ := releaseFinal_frame pad s
    exact (h.releaseFinal hm pad).endCheck (by rwa [hrel, deliverBits_frame]) (by rw [hrel])
  | @delivered bit hm => exact (h.opened hm).deliverBits rfl [bit]
  | ended hm hv => exact h.endCheck hm hv

/-- Settles O15: a step is a command or an illegal word, after the event is taken off. -/
theorem stepKeepsInvariants : Obligations.StepKeepsInvariants := by
  intro s t h hstep
  have hs : Inv { s with pending := s.pending.tail } := h.withPending _
  rcases step_cases s with ⟨i, heq⟩ | heq
  · exact hs.effect (exec_effect (heq.symm.trans hstep))
  · cases heq.symm.trans hstep
    exact hs.raise _

end Sys2Proof.Machine
end

section
/-! PROOF. TSET sequences (spec/40_system_table.md R97): one that ends without a fault has written, to each symbol it
names, the last codeword given, and nothing else; so the order of loading is not seen. -/

namespace Sys2Proof.Machine

/-- The table a TSET sequence leaves when it raises no fault: every write made, in order. -/
def tabWrites (t : Table) (l : List TsetArgs) : Table :=
  l.foldl (fun t a => tabWrite t a.sym (codewordOperand a.len a.cw)) t

/-- Each symbol ends with the last codeword given to it, or its entry from before. -/
theorem tabRead_tabWrites (t : Table) (l : List TsetArgs) (sym : Symbol) :
    tabRead (tabWrites t l) sym = (lastGiven sym l).or (tabRead t sym) := by
  induction l generalizing t with
  | nil => rfl
  | cons a l ih =>
    refine (ih _).trans ?_
    rw [tabRead_tabWrite, lastGiven]
    cases lastGiven sym l with
    | some e => rfl
    | none =>
      by_cases ha : a.sym = sym
      · simp [ha, codewordOperand, maskedCodeword]
      · simp [ha, Ne.symm ha]

/-- A faulted block refuses a whole TSET sequence (R211). -/
theorem execAll_tsets_of_faulted {s : State} (hf : s.fault ≠ .noFault) (l : List TsetArgs) :
    execAll (l.map TsetArgs.instr) s = .next s := by
  induction l with
  | nil => rfl
  | cons a l ih => rw [List.map_cons, execAll, exec_faulted hf (by simp [TsetArgs.instr])]; exact ih

/-- A sequence that ends without a fault has made every write: no TSET of it faulted, for a fault would have stayed. -/
theorem eq_tabWrites_of_execAll {s t : State} {l : List TsetArgs} (h : execAll (l.map TsetArgs.instr) s = .next t)
    (ht : t.fault = .noFault) : t = { s with table := tabWrites s.table l } := by
  induction l generalizing s with
  | nil =>
    cases h
    rfl
  | cons a l ih =>
    obtain ⟨u, hu⟩ := exec_next a.instr s
    rw [List.map_cons, execAll, hu] at h
    have hnofault : u.fault = .noFault := by
      by_contra hne
      cases (execAll_tsets_of_faulted hne l).symm.trans h
      exact hne ht
    have heffect : Effect s (.tset a.sym a.len a.cw) u := exec_effect hu
    cases heffect with
    | unchanged hs => exact absurd hnofault (hs.resolve_left (by simp))
    | faulted hne => exact absurd hnofault hne
    | written => exact ih h
    | appended hp => cases hp

/-- Settles O31: both sequences leave the state with a table that reads, at each symbol, the last codeword given. -/
theorem loadingOrderDoesNotMatter : Obligations.LoadingOrderDoesNotMatter := by
  intro s t t' l l' h h' ht ht' hlast
  have htables : tabWrites s.table l = tabWrites s.table l' := table_ext fun sym => by
    rw [tabRead_tabWrites, tabRead_tabWrites, hlast]
  rw [eq_tabWrites_of_execAll h ht, eq_tabWrites_of_execAll h' ht', htables]

end Sys2Proof.Machine
end

section
/-! PROOF. The packer in closed form (spec/41_pack.md R110 to R119): the value of the waiting and the appended bits
gives the bytes that leave and the partial byte that stays. -/

namespace Sys2Proof

/-- Dropping bits from the front of a sequence divides its value. -/
theorem valNat_drop (bs : List Bool) (n : Nat) : valNat (bs.drop n) = valNat bs / 2 ^ n := by
  apply Nat.eq_of_testBit_eq
  intro i
  rw [testBit_valNat, Nat.testBit_div_two_pow, testBit_valNat]
  simp [List.getD_eq_getElem?_getD, Nat.add_comm]

/-- A whole byte has the bits of the eight-bit group it is made of, and zeros where the group is short (R53). -/
theorem getLsbD_ofNat_valNat (bs : List Bool) {i : Nat} (hi : i < 8) :
    (BitVec.ofNat 8 (valNat bs)).getLsbD i = bs.getD i false := by
  rw [BitVec.getLsbD_ofNat, testBit_valNat, decide_eq_true hi, Bool.true_and]

/-- A byte takes the low eight bits of a number. -/
theorem ofNat_mod_byte (v : Nat) : BitVec.ofNat 8 (v % 2 ^ 8) = BitVec.ofNat 8 v :=
  BitVec.eq_of_toNat_eq (by simp)

end Sys2Proof

namespace Sys2Proof.Machine

/-! ### PUTCW and PUTSYM -/

section Append
variable {s : State} (hf : s.fault = .noFault) (hm : s.mode ≠ .decode)
include hf hm

/-- PUTCW of an admitted length appends its bits (R112). -/
theorem exec_putcw_eq_appendCodeword {len : Byte} (hlen : lengthOk s.cfg len = true) (cw : Codeword) :
    exec (.putcw len cw) s = .next (appendCodeword (bits len.toNat cw) s) := by
  rw [exec_putcw, if_pos hf, if_pos (mem_idle_pack.mpr hm), putcwRule, hlen]
  rfl

/-- PUTSYM of a symbol with an entry is PUTCW of the entry's codeword (R114 (a)). -/
theorem exec_putsym_eq_exec_putcw (hr : EntriesInRange s.cfg s.table) {sym : Symbol} {e : Entry}
    (he : tabRead s.table sym = some e) : exec (.putsym sym) s = exec (.putcw e.tlen e.tcw) s := by
  obtain ⟨hpos, hmax, -⟩ := hr sym e he
  rw [exec_putcw_eq_appendCodeword hf hm (lengthOk_iff.mpr ⟨hpos, hmax⟩), exec_putsym, if_pos hf,
    if_pos (mem_idle_pack.mpr hm), putsymRule, he]
  rfl

end Append

/-- The waiting bits followed by n bits of a codeword, as the number of R111. -/
theorem valNat_waiting_append {s : State} (h : s.acc.toNat < 2 ^ s.cnt.toNat) (n : Nat) (cw : Codeword) :
    valNat (waiting s ++ bits n cw) = s.acc.toNat + cw.toNat % 2 ^ n * 2 ^ s.cnt.toNat := by
  rw [valNat_append, waiting, valNat_bits, valNat_bits, Nat.mod_eq_of_lt h, bits_length, Nat.mul_comm]

/-- Appending a bit sequence, in closed form: the whole groups leave, and what is left over waits (R111). -/
theorem appendCodeword_eq {s : State} (h : s.acc.toNat < 2 ^ s.cnt.toNat) (bs : List Bool) {v m : Nat}
    (hv : valNat (waiting s ++ bs) = v) (hm : (s.cnt.toNat + bs.length) / 8 = m) :
    appendCodeword bs s = { s with
      mode := .pack, acc := BitVec.ofNat 8 (v / 2 ^ (8 * m)),
      cnt := BitVec.ofNat 3 ((s.cnt.toNat + bs.length) % 8),
      bout := s.bout ++ (List.range m).map fun j =>
        { data := BitVec.ofNat 8 (v / 2 ^ (8 * j)), last := false } } := by
  obtain ⟨hbout, hwait, hframe⟩ := appendCodeword_waiting bs s
  have hlen : (waiting s ++ bs).length = s.cnt.toNat + bs.length := by simp [waiting]
  have hbytes : fullBytes (waiting s ++ bs) = (List.range m).map fun j =>
      { data := BitVec.ofNat 8 (v / 2 ^ (8 * j)), last := false } := by
    rw [fullBytes_eq_map, hlen, hm]
    simp only [valNat_group, hv, ofNat_mod_byte]
  have hacc : (appendCodeword bs s).acc = BitVec.ofNat 8 (v / 2 ^ (8 * m)) := by
    have hclear : (appendCodeword bs s).acc.toNat < 2 ^ (appendCodeword bs s).cnt.toNat :=
      packBits_accClear (s := { s with mode := .pack }) h bs
    rw [acc_of_waiting hclear, hwait, leftover, hlen, hm, valNat_drop, hv]
  have hcnt : (appendCodeword bs s).cnt = BitVec.ofNat 3 ((s.cnt.toNat + bs.length) % 8) := by
    rw [cnt_of_waiting, hwait, leftover_length, hlen]
  rw [hframe, hbout, hbytes, hacc, hcnt]

/-- Settles O33: the closed form for the codeword's bits, and the two checks. -/
theorem putcwAppendsCodeword : Obligations.PutcwAppendsCodeword := by
  intro s len cw hf hacc n k v m
  have hv : valNat (waiting s ++ bits n cw) = v := valNat_waiting_append hacc n cw
  have hlen : (waiting s ++ bits n cw).length = k + n := by simp [waiting, k]
  refine ⟨fun hm hpos hmax => ⟨?_, ?_⟩, fun hm => ?_, fun hm hbad => ?_⟩
  · rw [exec_putcw_eq_appendCodeword hf hm (lengthOk_iff.mpr ⟨hpos, hmax⟩)]
    rw [appendCodeword_eq hacc _ hv (by rw [bits_length]), bits_length]
  · have hlt := valNat_lt (leftover (waiting s ++ bits n cw))
    rwa [leftover_length, leftover, valNat_drop, hlen, hv] at hlt
  · exact honour_requireMode_of_not_mem hf fun hmem => mem_idle_pack.mp hmem hm
  · exact exec_putcw_of_badLength hf hm
      (lengthOk_false.mpr (hbad.imp_left fun h0 => BitVec.eq_of_toNat_eq h0)) cw

/-- Settles O34: PUTCW of the entry's codeword, whose value lies below its length already. -/
theorem putsymAppendsTableCodeword : Obligations.PutsymAppendsTableCodeword := by
  intro s sym hf hacc hr
  refine ⟨fun hm e he => ?_, fun hm hnone => exec_putsym_of_tabRead_none hf hm hnone,
    fun hm => honour_requireMode_of_not_mem hf fun hmem => mem_idle_pack.mp hmem hm⟩
  obtain ⟨hpos, hmax, hlt⟩ := hr sym e he
  have hputcw := exec_putsym_eq_exec_putcw hf hm hr he
  obtain ⟨hclosed, -⟩ := putcwAppendsCodeword s e.tlen e.tcw hf hacc
  obtain ⟨hexec, -⟩ := hclosed hm hpos hmax
  rw [Nat.mod_eq_of_lt hlt] at hexec
  exact ⟨hputcw.trans hexec, hputcw⟩

/-- Settles O32: a length of 1 is admitted in every block, and the one bit is PackBit's. -/
theorem putbitPacksOneBit : Obligations.PutbitPacksOneBit := by
  intro s cw hf hm
  have hcnt : s.cnt.toNat < 8 := s.cnt.isLt
  have hexec : exec (.putcw 1 cw) s = .next { packBit s (cw.getLsbD 0) with mode := .pack } := by
    have hlen : lengthOk s.cfg 1 = true := lengthOk_iff.mpr ⟨le_rfl, lmax_pos s.cfg⟩
    rw [exec_putcw_eq_appendCodeword hf hm hlen, ← packBit_withMode]
    rfl
  refine ⟨setBit s.acc s.cnt.toNat (cw.getLsbD 0), fun j _ => getLsbD_setBit _ hcnt _ j,
    fun hlt => ?_, fun h7 => ?_⟩
  · rw [hexec, packBit_earlier (by rintro h7; simp [h7] at hlt)]
  · rw [hexec, packBit_eighth (BitVec.eq_of_toNat_eq h7)]
    rfl

/-! ### The whole stream -/

/-- The body bytes of a stream of bits: its groups of eight, the last one filled up with zeros (R53, R119). -/
def bodyBytes (x : List Bool) : List Byte :=
  (List.range ((x.length + 7) / 8)).map fun k => BitVec.ofNat 8 (valNat ((x.drop (8 * k)).take 8))

/-- The padding count of a stream of bits: what its body has too many (R119). -/
def streamPad (x : List Bool) : Byte := BitVec.ofNat 8 (8 * ((x.length + 7) / 8) - x.length)

@[simp] theorem bodyBytes_length (x : List Bool) : (bodyBytes x).length = (x.length + 7) / 8 := by simp [bodyBytes]

theorem streamPad_toNat (x : List Bool) : (streamPad x).toNat = 8 * ((x.length + 7) / 8) - x.length := by
  rw [streamPad, BitVec.toNat_ofNat]
  omega

/-- Bit i of body byte k is bit `8k + i` of the stream, and 0 beyond its end (R53). -/
theorem bodyBytes_getLsbD (x : List Bool) {k i : Nat} (hi : i < 8) (hk : k < (bodyBytes x).length) :
    (bodyBytes x)[k].getLsbD i = x.getD (8 * k + i) false := by
  simp only [bodyBytes, List.getElem_map, List.getElem_range]
  rw [getLsbD_ofNat_valNat _ hi]
  simp [List.getD_eq_getElem?_getD, hi]

/-- The body is the whole bytes of the stream, and one more for a short group (R54). -/
theorem map_bodyBytes (x : List Bool) : (bodyBytes x).map (fun d => ({ data := d, last := false } : BoutItem)) =
    fullBytes x ++
      if x.length % 8 = 0 then [] else [{ data := BitVec.ofNat 8 (valNat (leftover x)), last := false }] := by
  rw [bodyBytes, List.map_map, fullBytes_eq_map]
  split
  · next h0 =>
    rw [show (x.length + 7) / 8 = x.length / 8 by omega, List.append_nil]
    rfl
  · next hne =>
    have hshort : (leftover x).length ≤ 8 := by rw [leftover_length]; omega
    have hlast : (x.drop (8 * (x.length / 8))).take 8 = leftover x := List.take_of_length_le hshort
    rw [show (x.length + 7) / 8 = x.length / 8 + 1 by omega, List.range_succ, List.map_append, List.map_singleton,
      Function.comp_apply, hlast]
    rfl

/-- PFLUSH's rule does not look at MODE. -/
theorem pflushRule_withMode (s : State) (m : Mode) : pflushRule { s with mode := m } = pflushRule s := by
  by_cases h : s.cnt = 0
  · rw [pflushRule_of_cnt_eq_zero h, pflushRule_of_cnt_eq_zero (s := { s with mode := m }) h]
  · rw [pflushRule_of_cnt_ne_zero h, pflushRule_of_cnt_ne_zero (s := { s with mode := m }) h]

/-- A PFLUSH after the bits of a stream: the whole bytes have left, the short group leaves, and the padding count
follows (R116, R119). -/
theorem pflushRule_packBits {s : State} (hcnt : s.cnt = 0) (hacc : s.acc = 0) (x : List Bool) :
    pflushRule (packBits x s) = { s with
      acc := 0, cnt := 0, mode := .idle,
      bout := s.bout ++ (bodyBytes x).map (fun d => { data := d, last := false }) ++
        [{ data := streamPad x, last := true }] } := by
  have hempty : waiting s = [] := by simp [waiting, hcnt]
  obtain ⟨hbout, hwait⟩ := packBits_waiting s x
  rw [hempty, List.nil_append] at hbout hwait
  have hacc' := acc_of_waiting (packBits_accClear (s := s) (by simp [hcnt, hacc]) x)
  have hcnt' : (packBits x s).cnt.toNat = x.length % 8 := by simpa [hcnt] using packBits_cnt_toNat x s
  rw [map_bodyBytes]
  by_cases h0 : (packBits x s).cnt = 0
  · have hlen : x.length % 8 = 0 := by rw [← hcnt', h0]; rfl
    have hpad : streamPad x = 0 := by
      rw [streamPad, show 8 * ((x.length + 7) / 8) - x.length = 0 by omega]
      rfl
    rw [pflushRule_of_cnt_eq_zero h0, hbout, if_pos hlen, hpad, packBits_frame, List.append_nil]
  · have hlen : x.length % 8 ≠ 0 := fun h => h0 (BitVec.eq_of_toNat_eq (hcnt'.trans h))
    have hpad : streamPad x = BitVec.ofNat 8 (8 - (packBits x s).cnt.toNat) := by
      rw [streamPad, hcnt', show 8 * ((x.length + 7) / 8) - x.length = 8 - x.length % 8 by omega]
    rw [pflushRule_of_cnt_ne_zero h0, hbout, if_neg hlen, ← hpad, hacc', hwait, packBits_frame]
    simp

/-- Settles O37: the run of the commands is PackBit over their bits, and PFLUSH ends the stream. -/
theorem packStreamEmitsItsBits : Obligations.PackStreamEmitsItsBits := by
  intro s cmds hinv hidle hf hcmds x
  obtain ⟨hcnt, hacc, -⟩ := hinv.idleClosed hidle
  obtain ⟨m, hm, hrun⟩ := execAll_of_packsWithoutFault hf (by simp [hidle]) hcmds
  refine ⟨bodyBytes x, streamPad x, ?_, bodyBytes_length x, fun k i hi hk => bodyBytes_getLsbD x hi hk, ?_, ?_⟩
  · rw [execAll_append hrun, execAll, exec_pflush_eq_pflushRule (by simpa using hf) hm]
    rw [pflushRule_withMode, pflushRule_packBits hcnt hacc, ← hcnt, ← hacc, ← hidle]
    rfl
  · rw [streamPad_toNat, bodyBytes_length]
    omega
  · rw [streamPad_toNat]
    omega

end Sys2Proof.Machine
end

section
/-! PROOF. Decode streams (spec/42_unpack.md R132 to R136; spec/43_match.md R152, R154): a run of UBYTEs and a UEND is
the delivery of the body's bits and one terminal check, however the bytes are held on the way. -/

namespace Sys2Proof.Machine

/-! ### The held byte and MODE beside the matcher -/

/-- Deliveries do not look at the held byte or at MODE, so dropping the byte leaves no trace of it. -/
theorem dropHeld_deliverBits (bs : List Bool) (s : State) (b : Byte) (v : Bool) (m : Mode) :
    { deliverBits bs { s with mode := m, hold := b, holdV := v } with hold := 0, holdV := false } =
      { deliverBits bs s with mode := m, hold := 0, holdV := false } := by
  rw [deliverBits_other_fields]

/-- From an empty unpacker (I4) it is as if no byte had been held. -/
theorem dropHeld_deliverBits_of_none_held {s : State} (hv : s.holdV = false) (hhold : s.hold = 0) (bs : List Bool)
    (b : Byte) (v : Bool) (m : Mode) :
    { deliverBits bs { s with mode := m, hold := b, holdV := v } with hold := 0, holdV := false } =
      { deliverBits bs s with mode := m } := by
  rw [dropHeld_deliverBits, deliverBits_frame bs s]
  simp only [hv, hhold]

/-- Settles O40: the bits that are released are the same, and the byte is dropped. -/
theorem fillerBitsAreNotExamined : Obligations.FillerBitsAreNotExamined := by
  intro s pad b b' hpad hv hf hm hbits
  have hexec (b : Byte) : exec (.uend pad) { s with hold := b } =
      .next (endCheck { deliverBits (bits (8 - pad.toNat) b) s with hold := 0, holdV := false }) := by
    rw [exec_uend_of_held (s := { s with hold := b }) hf hm hpad hv, deliverBits_withHold]
  rw [hexec, hexec, bits_congr hbits]

/-! ### One byte, whole or bit by bit -/

/-- From an empty unpacker a UBYTE opens the stream and holds the byte (R132). -/
theorem exec_ubyte_of_none_held {s : State} (hf : s.fault = .noFault) (hm : s.mode ≠ .pack) (hv : s.holdV = false)
    (b : Byte) : exec (.ubyte b) s = .next { s with mode := .decode, hold := b, holdV := true } := by
  rw [exec_ubyte_eq_ubyteRule hf hm, ubyteRule_none hv]

/-- Settles O45: both deliver the bits of the byte and make the terminal check on the same state. -/
theorem eightMbitsEqualOneByte : Obligations.EightMbitsEqualOneByte := by
  intro s b hf hm hv hhold
  have hbitwise : execAll (mbits (bits 8 b) ++ [.mend]) s =
      .next (endCheck { deliverBits (bits 8 b) s with mode := .decode }) := by
    rw [execAll_append (execAll_mbits hf hm hv (List.ne_nil_of_length_pos (by simp))), execAll,
      exec_mend_eq_endCheck (by simpa using hf) (by simp) (by simpa using hv)]
    rfl
  have hwhole : execAll [.ubyte b, .uend 0] s = .next (endCheck
      { deliverBits (bits 8 b) { s with mode := .decode, hold := b, holdV := true } with
        hold := 0, holdV := false }) := by
    rw [execAll, exec_ubyte_of_none_held hf hm hv]
    simp only [execAll]
    rw [exec_uend_of_held (by exact hf) (by simp) (by decide) rfl]
    rfl
  rw [hbitwise, hwhole, dropHeld_deliverBits_of_none_held hv hhold]

/-! ### The whole stream -/

/-- From an open stream with a byte held: the rest of the body and UEND deliver that byte and the rest, but for the last
`pad` bits, and make the terminal check (R136). -/
theorem execAll_ubytes_uend {s : State} (hf : s.fault = .noFault) (hm : s.mode = .decode) (hv : s.holdV = true)
    {pad : Byte} (hpad : pad.toNat ≤ 7) (body : List Byte) :
    execAll (body.map .ubyte ++ [.uend pad]) s = .next (endCheck
      { deliverBits (((s.hold :: body).flatMap (bits 8)).take (8 * (body.length + 1) - pad.toNat)) s with
        hold := 0, holdV := false }) := by
  have hopen : s.mode ≠ .pack := by simp [hm]
  induction body generalizing s with
  | nil =>
    have htake : (bits 8 s.hold).take (8 - pad.toNat) = bits (8 - pad.toNat) s.hold := bits_take (by omega) _
    simp [execAll, exec_uend_of_held hf hopen hpad hv, htake]
  | cons b body ih =>
    have hrest := ih (s := { deliverBits (bits 8 s.hold) s with mode := .decode, hold := b, holdV := true })
      (by simpa using hf) rfl rfl (by simp)
    have hlen : 8 * (body.length + 1 + 1) - pad.toNat =
        (bits 8 s.hold).length + (8 * (body.length + 1) - pad.toNat) := by rw [bits_length]; omega
    rw [List.map_cons, List.cons_append, execAll, exec_ubyte_eq_ubyteRule hf hopen, ubyteRule_held hv]
    refine hrest.trans ?_
    rw [dropHeld_deliverBits, List.flatMap_cons (x := s.hold), List.length_cons, hlen, List.take_length_add_append,
      deliverBits_append]
    generalize hu : deliverBits _ (deliverBits (bits 8 s.hold) s) = u
    have hmode : u.mode = .decode := by simp [← hu, hm]
    rw [← hmode]

/-- Settles O41: an empty body is the terminal check alone; else the first UBYTE opens the stream. -/
theorem decodeStreamDeliversBody : Obligations.DecodeStreamDeliversBody := by
  intro s body pad hinv hidle hf hpad hbody x d
  obtain ⟨-, -, hv, hlen, -⟩ := hinv.idleClosed hidle
  have hopen : s.mode ≠ .pack := by simp [hidle]
  have hend : endCheck { d with mode := .decode } =
      if d.mlen = 0 then d else { d with mode := .decode, fault := .unknownCodeword } := by
    rcases endCheck_cases { d with mode := .decode } with ⟨h0, heq⟩ | ⟨hne, heq⟩
    · have hmode : d.mode = .idle := by simpa [d] using hidle
      rw [heq, if_pos h0, ← hmode]
    · rw [heq, if_neg hne]
      rfl
  cases body with
  | nil =>
    obtain rfl : pad = 0 := hbody.resolve_left (by simp)
    have hd : d = s := rfl
    simp only [List.map_nil, List.nil_append, execAll]
    rw [exec_uend_zero_of_none_held hf hopen hv, endCheck_of_mlen_eq_zero hlen, hd, if_pos hlen, ← hidle]
  | cons b body =>
    have hrun := execAll_ubytes_uend (s := { s with mode := .decode, hold := b, holdV := true }) hf rfl rfl hpad body
    rw [dropHeld_deliverBits_of_none_held hv (hinv.holdClear hv)] at hrun
    rw [List.map_cons, List.cons_append, execAll, exec_ubyte_of_none_held hf hopen hv]
    exact hrun.trans (congrArg _ hend)

end Sys2Proof.Machine
end

section
/-! PROOF. The matcher as a walk over the prefix tree (spec/43_match.md R156), by a simulation: as long as the buffered
bits are a node the cursor is at that node, and when they leave the tree the cursor is dead. -/

namespace Sys2Proof.Machine

/-! ### One step of the walk -/

section Walk
variable {t : Table} {path : List Bool} {b : Bool} (out : List Symbol)

theorem walkBit_dead : walkBit t (.dead, out) b = (.dead, out) := rfl

/-- A missing child is death. -/
theorem walkBit_of_not_isNode (h : isNode t (path ++ [b]) = false) : walkBit t (.at path, out) b = (.dead, out) := by
  simp [walkBit, h]

/-- A child without a label is moved to. -/
theorem walkBit_of_labelOf_none (h : isNode t (path ++ [b]) = true) (hl : labelOf t (path ++ [b]) = none) :
    walkBit t (.at path, out) b = (.at (path ++ [b]), out) := by
  simp [walkBit, h, hl]

/-- A child with a label emits it, and the cursor is back at the root. -/
theorem walkBit_of_labelOf_some {sym : Symbol} (h : isNode t (path ++ [b]) = true)
    (hl : labelOf t (path ++ [b]) = some sym) : walkBit t (.at path, out) b = (.root, out ++ [sym]) := by
  simp [walkBit, h, hl]

end Walk

/-! ### The relation -/

/-- The relation between a cursor of the walk and the matcher: the cursor is at the node that the buffer spells, or it
is dead and the buffer holds a string that is no node, which no later bit makes a codeword. -/
inductive Tracks (s : State) : Cursor → Prop
  | node (h : buffered s = [] ∨ isNode s.table (buffered s) = true) : Tracks s (.at (buffered s))
  | dead (hne : buffered s ≠ []) (h : isNode s.table (buffered s) = false) : Tracks s .dead

/-- The root is the node that the empty buffer spells. -/
theorem tracks_root {s : State} (h : s.mlen = 0) : Tracks s .root := by
  have hempty : buffered s = [] := buffered_eq_nil.mpr h
  rw [Cursor.root, ← hempty]
  exact .node (.inl hempty)

/-- The buffer is empty exactly when the cursor it is tracked by is at the root. -/
theorem Tracks.eq_root_iff {s : State} {c : Cursor} (h : Tracks s c) : c = .root ↔ s.mlen = 0 := by
  rw [← buffered_eq_nil]
  cases h with
  | node => simp [Cursor.root]
  | dead hne => simp [Cursor.root, hne]

/-- What continues a string that is no node is no node. -/
theorem isNode_append_of_not {t : Table} {p : List Bool} (h : isNode t p = false) (b : Bool) :
    isNode t (p ++ [b]) = false := by
  by_contra hne
  obtain ⟨sym, e, he, hp⟩ := isNode_iff.mp (Bool.of_not_eq_false hne)
  have hnode : isNode t p = true := isNode_iff.mpr ⟨sym, e, he, (List.prefix_append p [b]).trans hp⟩
  exact Bool.noConfusion (h.symm.trans hnode)

/-- A string that is no node is no codeword. -/
theorem bits_ne_of_not_isNode {t : Table} {p : List Bool} (h : isNode t p = false) {sym : Symbol} {e : Entry}
    (he : tabRead t sym = some e) : e.bits ≠ p := by
  rintro rfl
  have hnode : isNode t e.bits = true := isNode_iff.mpr ⟨sym, e, he, List.prefix_rfl⟩
  exact Bool.noConfusion (h.symm.trans hnode)

/-! ### The simulation -/

section Simulation
variable {s : State} (h : MatcherInv s)
include h

/-- A full buffer that no codeword equals is no node: a codeword has no more than LMAX bits (I9, I11). -/
theorem isNode_eq_false_of_movf (hm : s.movf = true) : isNode s.table (buffered s) = false := by
  by_contra hne
  obtain ⟨sym, e, he, hp⟩ := isNode_iff.mp (Bool.of_not_eq_false hne)
  obtain ⟨-, hmax, hlt⟩ := h.entriesInRange sym e he
  have hfull := h.movfFull hm
  have hbits : buffered s = e.bits := hp.eq_of_length_le (by simpa [Entry.bits, buffered, hfull] using hmax)
  have hentry : e = { tlen := s.mlen, tcw := s.mbuf } := entry_eq_of_bits_eq hlt h.mbufClear hbits.symm
  have hopen : s.mlen ≠ 0 := by
    have := lmax_pos s.cfg
    rintro h0
    simp [h0] at hfull
    omega
  exact h.bufferUnmatched hopen sym (hentry ▸ he)

variable (hd : CodewordsDistinct s.table) (b : Bool)
include hd

/-- A bit that completes no codeword is kept, and the string the buffer then spells decides where the cursor is. -/
theorem tracks_of_unmatched (hm : s.movf = false)
    (hn : ∀ sym e, tabRead s.table sym = some e → e.bits ≠ buffered s ++ [b]) :
    (deliverBit s b).sout = s.sout ∧
      Tracks (deliverBit s b) (if isNode s.table (buffered s ++ [b]) then .at (buffered s ++ [b]) else .dead) := by
  obtain ⟨heq, hbuf⟩ := deliverBit_unmatched h hd hn hm
  have htab : (deliverBit s b).table = s.table := deliverBits_table [b] s
  refine ⟨by rw [heq], ?_⟩
  rw [← hbuf, ← htab]
  split
  · next hnode => exact .node (.inr hnode)
  · next hnode => exact .dead (by simp [hbuf]) (Bool.eq_false_of_not_eq_true hnode)

/-- One delivered bit and one step of the walk: the same symbol, if any, and the cursor tracks the buffer again. -/
theorem deliverBit_tracks {c : Cursor} (hc : Tracks s c) (out : List Symbol) :
    ∃ new, (walkBit s.table (c, out) b).2 = out ++ new ∧ (deliverBit s b).sout = s.sout ++ new ∧
      Tracks (deliverBit s b) (walkBit s.table (c, out) b).1 := by
  cases hm : s.movf with
  | true =>
    have hnode := isNode_eq_false_of_movf h hm
    have hne : buffered s ≠ [] := by
      have := h.movfFull hm
      have := lmax_pos s.cfg
      rw [← List.length_pos_iff, buffered_length]
      omega
    rw [deliverBit_dropped hm]
    cases hc with
    | node hat => exact absurd hnode (by simp [hat.resolve_left hne])
    | dead => exact ⟨[], by simp [walkBit_dead], by simp, .dead hne hnode⟩
  | false =>
    cases hc with
    | dead _ hnode =>
      have hnext := isNode_append_of_not hnode b
      obtain ⟨hsout, htracks⟩ := tracks_of_unmatched h hd b hm fun _ _ => bits_ne_of_not_isNode hnext
      rw [hnext] at htracks
      exact ⟨[], by simp [walkBit_dead], by simp [hsout], htracks⟩
    | node =>
      cases hnode : isNode s.table (buffered s ++ [b]) with
      | false =>
        obtain ⟨hsout, htracks⟩ := tracks_of_unmatched h hd b hm fun _ _ => bits_ne_of_not_isNode hnode
        rw [hnode] at htracks
        rw [walkBit_of_not_isNode out hnode]
        exact ⟨[], by simp, by simp [hsout], htracks⟩
      | true =>
        cases hlabel : labelOf s.table (buffered s ++ [b]) with
        | none =>
          obtain ⟨hsout, htracks⟩ := tracks_of_unmatched h hd b hm (labelOf_none.mp hlabel)
          rw [hnode] at htracks
          rw [walkBit_of_labelOf_none out hnode hlabel]
          exact ⟨[], by simp, by simp [hsout], htracks⟩
        | some sym =>
          obtain ⟨e, he, hbits⟩ := labelOf_some hlabel
          rw [walkBit_of_labelOf_some out hnode hlabel, deliverBit_of_completed h hd hm he hbits]
          exact ⟨[sym], rfl, rfl, tracks_root rfl⟩

end Simulation

/-- The simulation over a bit sequence, from a cursor that tracks the buffer. -/
theorem deliverBits_tracks {s : State} (h : MatcherInv s) (hd : CodewordsDistinct s.table) {c : Cursor}
    (hc : Tracks s c) (out : List Symbol) (x : List Bool) :
    ∃ new, (x.foldl (walkBit s.table) (c, out)).2 = out ++ new ∧ (deliverBits x s).sout = s.sout ++ new ∧
      Tracks (deliverBits x s) (x.foldl (walkBit s.table) (c, out)).1 := by
  induction x generalizing s c out with
  | nil => exact ⟨[], by simp, by simp, hc⟩
  | cons b x ih =>
    obtain ⟨new, hout, hsout, htracks⟩ := deliverBit_tracks h hd b hc out
    have htab : (deliverBit s b).table = s.table := deliverBits_table [b] s
    obtain ⟨rest, hout', hsout', htracks'⟩ := ih (deliverBit_matcherInv h b) (htab ▸ hd) htracks
      (walkBit s.table (c, out) b).2
    rw [htab] at hout' htracks'
    exact ⟨new ++ rest, hout'.trans (by rw [hout, List.append_assoc]),
      hsout'.trans (by rw [hsout, List.append_assoc]), htracks'⟩

/-- Settles O46: the simulation from the empty buffer and the root. -/
theorem matcherIsPrefixTreeWalk : Obligations.MatcherIsPrefixTreeWalk := by
  intro s x hinv h0
  obtain ⟨new, hout, hsout, htracks⟩ :=
    deliverBits_tracks hinv.matcherInv hinv.codewordsDistinct (tracks_root h0) [] x
  exact ⟨by rw [hsout, walk, hout, List.nil_append], htracks.eq_root_iff.symm⟩

end Sys2Proof.Machine
end

section
/-! PROOF. The round trip (spec/43_match.md R158): the body of a pack stream spells the packed bits, so a decode stream
of it delivers the codewords of the symbols, which a prefix-free table gives back. -/

namespace Sys2Proof.Machine

/-! ### The bits of a body -/

/-- Bit i of byte k stands at position `8k + i` of the stream of a body (R53). -/
theorem getElem?_flatMap_bits {body : List Byte} {k i : Nat} (hi : i < 8) (hk : k < body.length) :
    (body.flatMap (bits 8))[8 * k + i]? = some (body[k].getLsbD i) := by
  induction body generalizing k with
  | nil => simp at hk
  | cons b body ih =>
    rw [List.flatMap_cons]
    cases k with
    | zero => rw [List.getElem?_append_left (by simpa using hi)]; simp [bits, hi]
    | succ k =>
      have hskip : 8 * (k + 1) + i - (bits 8 b).length = 8 * k + i := by rw [bits_length]; omega
      rw [List.getElem?_append_right (by rw [bits_length]; omega), hskip, ih (by simpa using hk)]
      rfl

/-- A body whose bits are those of x, and filler after them, spells x. -/
theorem take_flatMap_bits {body : List Byte} {x : List Bool} (hlen : x.length ≤ 8 * body.length)
    (hbits : ∀ k i, i < 8 → (hk : k < body.length) → body[k].getLsbD i = x.getD (8 * k + i) false) :
    (body.flatMap (bits 8)).take x.length = x := by
  apply List.ext_getElem?
  intro j
  by_cases hj : j < x.length
  · have hmod : j % 8 < 8 := Nat.mod_lt _ (by decide)
    have hdiv : j / 8 < body.length := by omega
    have hbit := hbits (j / 8) (j % 8) hmod hdiv
    have hget := getElem?_flatMap_bits hmod hdiv
    rw [Nat.div_add_mod] at hbit hget
    rw [List.getElem?_take_of_lt hj, hget, hbit]
    simp [hj]
  · simp [hj]

/-! ### The matcher when its buffer is empty -/

/-- An empty buffer has no bits and room for one (I2, I3). -/
theorem MatcherInv.empty {s : State} (h : MatcherInv s) (h0 : s.mlen = 0) : s.mbuf = 0 ∧ s.movf = false := by
  have hmbuf := h.mbufClear
  rw [h0] at hmbuf
  exact ⟨BitVec.eq_of_toNat_eq (Nat.lt_one_iff.mp hmbuf), h.movf_eq_false (by rw [h0]; exact lmax_pos _)⟩

/-- Deliveries that find the buffer empty and leave it empty do nothing but emit symbols. -/
theorem deliverBits_eq_of_empty {s : State} (h : MatcherInv s) (h0 : s.mlen = 0) {x : List Bool}
    (h0' : (deliverBits x s).mlen = 0) : deliverBits x s = { s with sout := (deliverBits x s).sout } := by
  obtain ⟨hmbuf, hmovf⟩ := h.empty h0
  obtain ⟨hmbuf', hmovf'⟩ := (deliverBits_matcherInv h x).empty h0'
  rw [deliverBits_frame]
  simp only [h0, h0', hmbuf, hmbuf', hmovf, hmovf']

/-! ### Decoding a packed body -/

/-- A decode stream whose body spells the codewords of symbols emits those symbols, and nothing else changes (R158). -/
theorem execAll_of_spelled_codewords {t : State} (hinv : Inv t) (hidle : t.mode = .idle) (hf : t.fault = .noFault)
    (hpf : PrefixFree t.table) {syms : List Symbol} (hv : ∀ sym ∈ syms, tabRead t.table sym ≠ none)
    {body : List Byte} {pad : Byte} (hpad : pad.toNat ≤ 7) (hbody : body ≠ [] ∨ pad = 0)
    (hspell : (body.flatMap (bits 8)).take (8 * body.length - pad.toNat) = syms.flatMap (codewordOf t.table)) :
    execAll (body.map .ubyte ++ [.uend pad]) t = .next { t with sout := t.sout ++ syms } := by
  obtain ⟨-, -, -, h0, -⟩ := hinv.idleClosed hidle
  obtain ⟨hsout, hmlen⟩ := deliverBits_flatMap_codewordOf hinv.matcherInv hpf h0 hv
  have hdecode := decodeStreamDeliversBody t body pad hinv hidle hf hpad hbody
  rw [hspell] at hdecode
  rw [hdecode, if_pos hmlen, deliverBits_eq_of_empty hinv.matcherInv h0 hmlen, hsout]

/-- No invariant speaks of the trace of the packer's output. -/
theorem Inv.withBout {s : State} (h : Inv s) (items : List BoutItem) : Inv { s with bout := items } := { h with }

/-- Settles O48: the body of the pack stream spells the codewords of the symbols, with the same table. -/
theorem roundTripThroughBlock : Obligations.RoundTripThroughBlock := by
  intro s syms hinv hidle hf hpf hv
  obtain ⟨body, pad, hpack, -, hbits, hsum, hpad⟩ := packStreamEmitsItsBits s (syms.map .putsym) hinv hidle hf
    (by simpa [PacksWithoutFault] using hv)
  have hx : (syms.map Instr.putsym).flatMap (packedBits s.table) = syms.flatMap (codewordOf s.table) :=
    List.flatMap_map _ _ _
  rw [hx] at hbits hsum
  have hspell : (body.flatMap (bits 8)).take (8 * body.length - pad.toNat) = syms.flatMap (codewordOf s.table) := by
    rw [← hsum, Nat.add_sub_cancel]
    exact take_flatMap_bits (by omega) hbits
  have hbody : body ≠ [] ∨ pad = 0 := by
    refine or_iff_not_imp_left.mpr fun hempty => BitVec.eq_of_toNat_eq ?_
    rw [not_not.mp hempty] at hsum
    exact (Nat.add_eq_zero_iff.mp hsum).2
  have hinv' := hinv.withBout
    (s.bout ++ body.map (fun d => { data := d, last := false }) ++ [{ data := pad, last := true }])
  have hdecode := execAll_of_spelled_codewords hinv' hidle hf hpf hv hpad hbody hspell
  exact ⟨_, body, pad, hpack, rfl, hdecode, hidle, hf, rfl⟩

end Sys2Proof.Machine
end
